-- ==== Sys2Proof/Word.lean ====
section
/-! DEFINITION. The sizes of the machine's values (spec 00_scope.md R6): bytes, 16-bit words,
and the bounded indexes of the register file, the keypad, the call stack and the screen. -/

namespace Sys2Proof

/-- A memory cell, a general register or a timer: 8 bits, unsigned (R21, R30, R31, R32). -/
abbrev Byte := BitVec 8

/-- An opcode, PC, I or a stack slot: 16 bits, unsigned (R24, R27, R29, R70). -/
abbrev Word := BitVec 16

/-- The number of a general register V0..VF (R21, and the fields x and y of R71). -/
abbrev RegIdx := Fin 16

/-- The number of a key 0x0..0xF (R35). -/
abbrev KeyIdx := Fin 16

/-- The number of a call-stack slot (R29). -/
abbrev SlotIdx := Fin 16

/-- A screen column, counted rightward from 0 (R34). -/
abbrev Column := Fin 64

/-- A screen row, counted downward from 0 (R34). -/
abbrev Row := Fin 32

end Sys2Proof
end

