-- ==== Sys2Proof/Syntax.lean ====
section
/-! DEFINITION. The instructions: one constructor for each of the 35 rows of spec/opcode_table.json,
named after the spec's own labels (40_cycle.md R95). The operands are those of 30_encoding.md R71:
`x` and `y` are register numbers, `n` a row count 0..15, `kk` an 8-bit and `nnn` a 12-bit immediate. -/

namespace Sys2Proof

inductive Instr where
  /-- `00E0` (R110) -/
  | cls
  /-- `00EE` (R120) -/
  | ret
  /-- `0nnn` (R96) -/
  | sys (nnn : BitVec 12)
  /-- `1nnn` (R121) -/
  | jp (nnn : BitVec 12)
  /-- `2nnn` (R122) -/
  | call (nnn : BitVec 12)
  /-- `3xkk` (R123) -/
  | seImm (x : RegIdx) (kk : BitVec 8)
  /-- `4xkk` (R124) -/
  | sneImm (x : RegIdx) (kk : BitVec 8)
  /-- `5xy0` (R125) -/
  | seReg (x y : RegIdx)
  /-- `6xkk` (R140) -/
  | ldImm (x : RegIdx) (kk : BitVec 8)
  /-- `7xkk` (R141) -/
  | addImm (x : RegIdx) (kk : BitVec 8)
  /-- `8xy0` (R151) -/
  | ldReg (x y : RegIdx)
  /-- `8xy1` (R152) -/
  | orReg (x y : RegIdx)
  /-- `8xy2` (R153) -/
  | andReg (x y : RegIdx)
  /-- `8xy3` (R154) -/
  | xorReg (x y : RegIdx)
  /-- `8xy4` (R155) -/
  | addReg (x y : RegIdx)
  /-- `8xy5` (R156) -/
  | sub (x y : RegIdx)
  /-- `8xy6` (R157) -/
  | shr (x y : RegIdx)
  /-- `8xy7` (R158) -/
  | subn (x y : RegIdx)
  /-- `8xyE` (R159) -/
  | shl (x y : RegIdx)
  /-- `9xy0` (R126) -/
  | sneReg (x y : RegIdx)
  /-- `Annn` (R142) -/
  | ldI (nnn : BitVec 12)
  /-- `Bnnn` (R127) -/
  | jpV0 (nnn : BitVec 12)
  /-- `Cxkk` (R143) -/
  | rnd (x : RegIdx) (kk : BitVec 8)
  /-- `Dxyn` (R111) -/
  | drw (x y : RegIdx) (n : Fin 16)
  /-- `Ex9E` (R170) -/
  | skp (x : RegIdx)
  /-- `ExA1` (R171) -/
  | sknp (x : RegIdx)
  /-- `Fx07` (R180) -/
  | ldFromDT (x : RegIdx)
  /-- `Fx0A` (R172) -/
  | ldKey (x : RegIdx)
  /-- `Fx15` (R181) -/
  | ldDT (x : RegIdx)
  /-- `Fx18` (R182) -/
  | ldST (x : RegIdx)
  /-- `Fx1E` (R190) -/
  | addI (x : RegIdx)
  /-- `Fx29` (R191) -/
  | ldF (x : RegIdx)
  /-- `Fx33` (R192) -/
  | ldB (x : RegIdx)
  /-- `Fx55` (R193) -/
  | store (x : RegIdx)
  /-- `Fx65` (R194) -/
  | load (x : RegIdx)
  deriving DecidableEq, Repr

/-- The names of an instruction (30_encoding.md R83, R84): its canonical pattern, and the conventional
assembler form, which the spec gives for readability alone (D33; without the optional second operand of
the shifts). -/
def Instr.names : Instr → String × String
  | .cls => ("00E0", "CLS")
  | .ret => ("00EE", "RET")
  | .sys _ => ("0nnn", "SYS nnn")
  | .jp _ => ("1nnn", "JP nnn")
  | .call _ => ("2nnn", "CALL nnn")
  | .seImm _ _ => ("3xkk", "SE Vx, kk")
  | .sneImm _ _ => ("4xkk", "SNE Vx, kk")
  | .seReg _ _ => ("5xy0", "SE Vx, Vy")
  | .ldImm _ _ => ("6xkk", "LD Vx, kk")
  | .addImm _ _ => ("7xkk", "ADD Vx, kk")
  | .ldReg _ _ => ("8xy0", "LD Vx, Vy")
  | .orReg _ _ => ("8xy1", "OR Vx, Vy")
  | .andReg _ _ => ("8xy2", "AND Vx, Vy")
  | .xorReg _ _ => ("8xy3", "XOR Vx, Vy")
  | .addReg _ _ => ("8xy4", "ADD Vx, Vy")
  | .sub _ _ => ("8xy5", "SUB Vx, Vy")
  | .shr _ _ => ("8xy6", "SHR Vx")
  | .subn _ _ => ("8xy7", "SUBN Vx, Vy")
  | .shl _ _ => ("8xyE", "SHL Vx")
  | .sneReg _ _ => ("9xy0", "SNE Vx, Vy")
  | .ldI _ => ("Annn", "LD I, nnn")
  | .jpV0 _ => ("Bnnn", "JP V0, nnn")
  | .rnd _ _ => ("Cxkk", "RND Vx, kk")
  | .drw _ _ _ => ("Dxyn", "DRW Vx, Vy, n")
  | .skp _ => ("Ex9E", "SKP Vx")
  | .sknp _ => ("ExA1", "SKNP Vx")
  | .ldFromDT _ => ("Fx07", "LD Vx, DT")
  | .ldKey _ => ("Fx0A", "LD Vx, K")
  | .ldDT _ => ("Fx15", "LD DT, Vx")
  | .ldST _ => ("Fx18", "LD ST, Vx")
  | .addI _ => ("Fx1E", "ADD I, Vx")
  | .ldF _ => ("Fx29", "LD F, Vx")
  | .ldB _ => ("Fx33", "LD B, Vx")
  | .store _ => ("Fx55", "LD [I], Vx")
  | .load _ => ("Fx65", "LD Vx, [I]")

end Sys2Proof
end

