-- ==== Sys2Proof/Decode.lean ====
section
/-! DEFINITION. The decoder (spec 30_encoding.md R70-R82, 40_cycle.md R95) and, after it, the encoder
written from the formats of R73. -/

namespace Sys2Proof

/-! ## Fields of an opcode (R71) -/

/-- `f`, op[15:12]. -/
def fieldF (op : Word) : BitVec 4 := op.extractLsb' 12 4

/-- The register number a 4-bit field holds. -/
def regOfBits (b : BitVec 4) : RegIdx := b.toFin

/-- `x`, op[11:8]. -/
def fieldX (op : Word) : RegIdx := regOfBits (op.extractLsb' 8 4)

/-- `y`, op[7:4]. -/
def fieldY (op : Word) : RegIdx := regOfBits (op.extractLsb' 4 4)

/-- `n`, op[3:0]. -/
def fieldN (op : Word) : BitVec 4 := op.extractLsb' 0 4

/-- `kk`, op[7:0]. -/
def fieldKK (op : Word) : BitVec 8 := op.extractLsb' 0 8

/-- `nnn`, op[11:0]. -/
def fieldNNN (op : Word) : BitVec 12 := op.extractLsb' 0 12

/-! ## Decoding -/

/-- Why bytes are not one of the 35 instructions. -/
inductive Rejected where
  /-- `Unknown(op)`: the opcode matches no row of the table (R80, R95). -/
  | unknownOpcode (op : Word)
  /-- Fewer than the two bytes of an opcode were given (R70). -/
  | truncated
  deriving DecidableEq, Repr

/-- Family 0 (R75): the two exact matches come before the 0nnn pattern. -/
def decodeFamily0 (op : Word) : Instr :=
  if op = 0x00E0#16 then .cls
  else if op = 0x00EE#16 then .ret
  else .sys (fieldNNN op)

/-- Family 8 (R76), decoded on n. -/
def decodeFamily8 (op : Word) : Except Rejected Instr :=
  match fieldN op with
  | 0x0#4 => .ok (.ldReg (fieldX op) (fieldY op))
  | 0x1#4 => .ok (.orReg (fieldX op) (fieldY op))
  | 0x2#4 => .ok (.andReg (fieldX op) (fieldY op))
  | 0x3#4 => .ok (.xorReg (fieldX op) (fieldY op))
  | 0x4#4 => .ok (.addReg (fieldX op) (fieldY op))
  | 0x5#4 => .ok (.sub (fieldX op) (fieldY op))
  | 0x6#4 => .ok (.shr (fieldX op) (fieldY op))
  | 0x7#4 => .ok (.subn (fieldX op) (fieldY op))
  | 0xE#4 => .ok (.shl (fieldX op) (fieldY op))
  | _ => .error (.unknownOpcode op)

/-- Family E (R77), decoded on kk. -/
def decodeFamilyE (op : Word) : Except Rejected Instr :=
  match fieldKK op with
  | 0x9E#8 => .ok (.skp (fieldX op))
  | 0xA1#8 => .ok (.sknp (fieldX op))
  | _ => .error (.unknownOpcode op)

/-- Family F (R78), decoded on kk. -/
def decodeFamilyF (op : Word) : Except Rejected Instr :=
  match fieldKK op with
  | 0x07#8 => .ok (.ldFromDT (fieldX op))
  | 0x0A#8 => .ok (.ldKey (fieldX op))
  | 0x15#8 => .ok (.ldDT (fieldX op))
  | 0x18#8 => .ok (.ldST (fieldX op))
  | 0x1E#8 => .ok (.addI (fieldX op))
  | 0x29#8 => .ok (.ldF (fieldX op))
  | 0x33#8 => .ok (.ldB (fieldX op))
  | 0x55#8 => .ok (.store (fieldX op))
  | 0x65#8 => .ok (.load (fieldX op))
  | _ => .error (.unknownOpcode op)

/-- `Decode(op)`, the two-level lookup of R95. The last arm is f = 0xF, the one value left. -/
def decodeWord (op : Word) : Except Rejected Instr :=
  match fieldF op with
  | 0x0#4 => .ok (decodeFamily0 op)
  | 0x1#4 => .ok (.jp (fieldNNN op))
  | 0x2#4 => .ok (.call (fieldNNN op))
  | 0x3#4 => .ok (.seImm (fieldX op) (fieldKK op))
  | 0x4#4 => .ok (.sneImm (fieldX op) (fieldKK op))
  | 0x5#4 => if fieldN op = 0#4 then .ok (.seReg (fieldX op) (fieldY op))
             else .error (.unknownOpcode op)
  | 0x6#4 => .ok (.ldImm (fieldX op) (fieldKK op))
  | 0x7#4 => .ok (.addImm (fieldX op) (fieldKK op))
  | 0x8#4 => decodeFamily8 op
  | 0x9#4 => if fieldN op = 0#4 then .ok (.sneReg (fieldX op) (fieldY op))
             else .error (.unknownOpcode op)
  | 0xA#4 => .ok (.ldI (fieldNNN op))
  | 0xB#4 => .ok (.jpV0 (fieldNNN op))
  | 0xC#4 => .ok (.rnd (fieldX op) (fieldKK op))
  | 0xD#4 => .ok (.drw (fieldX op) (fieldY op) (fieldN op).toFin)
  | 0xE#4 => decodeFamilyE op
  | _ => decodeFamilyF op

/-- An opcode's two bytes, high byte first (R53, R70). -/
def wordOfBytes (hi lo : Byte) : Word := hi ++ lo

/-- Decode the first instruction of a list of bytes; the rest of the list comes back with it (R70). -/
def decode : List Byte → Except Rejected (Instr × List Byte)
  | hi :: lo :: rest =>
    match decodeWord (wordOfBytes hi lo) with
    | .ok i => .ok (i, rest)
    | .error r => .error r
  | [] | [_] => .error .truncated

/-! ## Encoding (the formats of R73) -/

/-- The 4-bit field that names a register. -/
def regBits (x : RegIdx) : BitVec 4 := BitVec.ofFin x

/-- Format `NNN`: f[15:12], nnn[11:0]. -/
def opNNN (f : BitVec 4) (nnn : BitVec 12) : Word := f ++ nnn

/-- Format `XKK`, and format `X` with the sub-opcode as kk: f[15:12], x[11:8], kk[7:0]. -/
def opXKK (f : BitVec 4) (x : RegIdx) (kk : BitVec 8) : Word := f ++ regBits x ++ kk

/-- Format `XYN`, and format `XY` with the sub-opcode as n: f[15:12], x[11:8], y[7:4], n[3:0]. -/
def opXYN (f : BitVec 4) (x y : RegIdx) (n : BitVec 4) : Word := f ++ regBits x ++ regBits y ++ n

/-- The opcode of an instruction, from the "encoding" column of spec/opcode_table.json. -/
def encode : Instr → Word
  | .cls => 0x00E0#16
  | .ret => 0x00EE#16
  | .sys nnn => opNNN 0x0#4 nnn
  | .jp nnn => opNNN 0x1#4 nnn
  | .call nnn => opNNN 0x2#4 nnn
  | .seImm x kk => opXKK 0x3#4 x kk
  | .sneImm x kk => opXKK 0x4#4 x kk
  | .seReg x y => opXYN 0x5#4 x y 0x0#4
  | .ldImm x kk => opXKK 0x6#4 x kk
  | .addImm x kk => opXKK 0x7#4 x kk
  | .ldReg x y => opXYN 0x8#4 x y 0x0#4
  | .orReg x y => opXYN 0x8#4 x y 0x1#4
  | .andReg x y => opXYN 0x8#4 x y 0x2#4
  | .xorReg x y => opXYN 0x8#4 x y 0x3#4
  | .addReg x y => opXYN 0x8#4 x y 0x4#4
  | .sub x y => opXYN 0x8#4 x y 0x5#4
  | .shr x y => opXYN 0x8#4 x y 0x6#4
  | .subn x y => opXYN 0x8#4 x y 0x7#4
  | .shl x y => opXYN 0x8#4 x y 0xE#4
  | .sneReg x y => opXYN 0x9#4 x y 0x0#4
  | .ldI nnn => opNNN 0xA#4 nnn
  | .jpV0 nnn => opNNN 0xB#4 nnn
  | .rnd x kk => opXKK 0xC#4 x kk
  | .drw x y n => opXYN 0xD#4 x y (BitVec.ofFin n)
  | .skp x => opXKK 0xE#4 x 0x9E#8
  | .sknp x => opXKK 0xE#4 x 0xA1#8
  | .ldFromDT x => opXKK 0xF#4 x 0x07#8
  | .ldKey x => opXKK 0xF#4 x 0x0A#8
  | .ldDT x => opXKK 0xF#4 x 0x15#8
  | .ldST x => opXKK 0xF#4 x 0x18#8
  | .addI x => opXKK 0xF#4 x 0x1E#8
  | .ldF x => opXKK 0xF#4 x 0x29#8
  | .ldB x => opXKK 0xF#4 x 0x33#8
  | .store x => opXKK 0xF#4 x 0x55#8
  | .load x => opXKK 0xF#4 x 0x65#8

/-! ## The host's view of a table word -/

/-- The byte stored at the lower address: op[15:8] (R53). -/
def highByte (op : Word) : Byte := op.extractLsb' 8 8

/-- The byte stored at the higher address: op[7:0] (R53). -/
def lowByte (op : Word) : Byte := op.extractLsb' 0 8

/-- The opcode whose low `nbits` bits are those of `w`, as spec/opcode_table.json numbers them; every
bit above `nbits` is 0. -/
def tableWord (nbits w : Nat) : Word := BitVec.ofNat 16 (w % 2 ^ nbits)

/-- What the decoder reads from a table word laid out in memory order. -/
def decodeTableWord (nbits w : Nat) : Option Instr :=
  match decode [highByte (tableWord nbits w), lowByte (tableWord nbits w)] with
  | .ok (i, _) => some i
  | .error _ => none

end Sys2Proof
end

