-- ==== Sys2Proof/Config.lean ====
section
/-! DEFINITION. The implementation parameters of spec 00_scope.md R6 and R8, and the one free value
of the machine, the random byte (R9). FONT_DATA and the value of SHIFT_SOURCE stand beside the
operations that use them (Machine/Memory.lean, Machine/Operands.lean). -/

namespace Sys2Proof.Config

/-- MEM_SIZE: addresses 0x000..0xFFF (R6, R50). -/
def memSize : Nat := 4096

/-- PROG_BASE: where `load` places a program and where PC starts (R6, R24). -/
def progBase : Nat := 0x200

/-- ROM_MAX: the longest program `load` accepts, 4096 - 0x200 bytes (R6, R256). -/
def romMax : Nat := memSize - progBase

/-- FONT_BASE: the address of glyph 0 (R6, R33). -/
def fontBase : Nat := 0x050

/-- FONT_GLYPH_BYTES: the bytes of one glyph (R6). -/
def glyphBytes : Nat := 5

/-- The two values of SHIFT_SOURCE (R8): the register whose value 8xy6 and 8xyE shift. -/
inductive ShiftSource where
  /-- shift V[x]: this hardware -/
  | vx
  /-- shift V[y]: the COSMAC convention, not this hardware -/
  | vy
  deriving DecidableEq, Repr

/-- RND (R9): the byte the random source gives at its n-th draw. It has no body, so no proof can
tell its value; the draws are numbered by `State.draws`. DESIGN CHOICE (log entry 1). -/
opaque randomByte : Nat → Byte

end Sys2Proof.Config
end

