-- ==== Sys2Proof/Machine/State.lean ====
section
/-! DEFINITION. The state of the CORE (`CoreState`), one field per row of spec 10_state.md R20, with its
reset values (70_reset_and_hazards.md R251); the reasons a step can stop; the diagnostics (60_exceptions.md R210). -/

namespace Sys2Proof.Machine

/-- MEM (R32): (address, byte) pairs in rising order, none of them equal to what an unlisted address
reads as (`resetByte`, Machine/Memory.lean). -/
abbrev Memory := List Host.Cell

/-- FB (R34): 32 rows of 64 pixels; true is on. -/
abbrev Framebuffer := Vector (Vector Bool 64) 32

/-- A model fault with the information R214 records. The machine stops: `step` answers it as its
fault, and the host's `step` command keeps it in FAULT (R215). -/
inductive Fault where
  /-- `AddressFault(addr)`, addr > 0xFFF: raised by the fetch (then without an opcode), Dxyn, Fx33,
  Fx55 and Fx65 (R94, R111, R192-R194). SAFE: the source gives such an access no meaning (D5), so
  nothing is claimed of a run past it. -/
  | addressFault (addr : Nat) (pc : Word) (opcode : Option Word)
  /-- `KeyIndexFault(k)`, k > 0xF: raised by Ex9E and ExA1 (R170, R171, R175). SAFE: the source gives
  such a key number no meaning (D14). -/
  | keyIndexFault (key : Byte) (pc : Word) (opcode : Word)
  deriving DecidableEq, Repr

/-- Why the machine gives a step no meaning. -/
inductive Refusal where
  /-- An arm of `exec` without a meaning; no arm of this model answers it. SAFE. -/
  | notModelled (mnemonic : String)
  /-- FAULT is set: every command that could change the state is refused (R216). Raised by `step`
  and by every state-changing host command. SAFE: the machine does nothing. -/
  | machineFaulted (record : Fault)
  deriving DecidableEq, Repr

/-- The diagnostics, the non-fatal outputs of `step` and `load` (R210, R211). -/
inductive Diag where
  | none
  | stackOverflow
  | stackUnderflow
  | unknownOpcode
  | romTooLarge
  deriving DecidableEq, Repr

/-- The CORE's state: one field per row of R20, and nothing else. -/
structure CoreState where
  /-- V0..VF; VF doubles as the flag (R21, R22) -/
  v       : Vector Byte 16
  /-- PC: the address of the next instruction; during execute, the instruction's address + 2 (R24) -/
  pc      : Word
  /-- I, the index register (R27) -/
  idx     : Word
  /-- SP, the number of return addresses on the stack, 0..16 (R28) -/
  sp      : Fin 17
  /-- STACK, outside memory (R29) -/
  stack   : Vector Word 16
  /-- DT, the delay timer (R30) -/
  dt      : Byte
  /-- ST, the sound timer (R31) -/
  st      : Byte
  /-- MEM (R32) -/
  mem     : Memory
  /-- FB (R34) -/
  fb      : Framebuffer
  /-- KEY: true is pressed (R35) -/
  key     : Vector Bool 16
  /-- WAIT: a key wait is in progress (R38) -/
  wait    : Bool
  /-- WAITREG: the register the key wait will write (R39) -/
  waitReg : RegIdx
  /-- LATCH: the first key newly pressed during the key wait (R40) -/
  latch   : Option KeyIdx
  /-- FAULT: the record of the model fault that stopped the machine (R41) -/
  fault   : Option Fault
  deriving DecidableEq, Repr

/-- What the interface's `step` runs on: the CORE's state, and beside it how far the host's random source
has been read. RND is an input of the host's `step(RND)` (R9, R37), which the interface's `step` has no
argument for. The counter is no state of the CORE: the host's commands (Machine/Commands.lean) run on
`CoreState` alone. DESIGN CHOICE (log entry 1). -/
structure State extends CoreState where
  /-- how many bytes the host's random source has given -/
  draws   : Nat
  deriving DecidableEq, Repr

/-- The CORE right after construction (R250-R254). Nothing is listed in memory: an unlisted
address reads as its reset content, the font included (R32, R33). -/
def CoreState.reset : CoreState where
  v       := Vector.replicate 16 0#8
  pc      := 0x200#16
  idx     := 0#16
  sp      := 0
  stack   := Vector.replicate 16 0#16
  dt      := 0#8
  st      := 0#8
  mem     := []
  fb      := Vector.replicate 32 (Vector.replicate 64 false)
  key     := Vector.replicate 16 false
  wait    := false
  waitReg := 0
  latch   := none
  fault   := none

/-- The CORE right after construction, and no random byte drawn yet (log entry 1). -/
def State.reset : State where
  toCoreState := CoreState.reset
  draws       := 0

end Sys2Proof.Machine
end

