-- ==== Sys2Proof/Machine/Memory.lean ====
section
/-! DEFINITION. The memory array (spec 20_memory.md, 10_state.md R32, R33): what an unlisted address
reads as, the canonical form, one byte read and written, and runs of bytes with the one range check. -/

namespace Sys2Proof.Machine

/-- FONT_DATA (R33): the 16 glyphs, 5 bytes each. PRESUMED (log entry 8): the spec takes the
conventional CHIP-8 font from general knowledge. -/
def fontData : List Byte :=
  [0xF0, 0x90, 0x90, 0x90, 0xF0] ++ [0x20, 0x60, 0x20, 0x20, 0x70] ++
  [0xF0, 0x10, 0xF0, 0x80, 0xF0] ++ [0xF0, 0x10, 0xF0, 0x10, 0xF0] ++
  [0x90, 0x90, 0xF0, 0x10, 0x10] ++ [0xF0, 0x80, 0xF0, 0x10, 0xF0] ++
  [0xF0, 0x80, 0xF0, 0x90, 0xF0] ++ [0xF0, 0x10, 0x20, 0x40, 0x40] ++
  [0xF0, 0x90, 0xF0, 0x90, 0xF0] ++ [0xF0, 0x90, 0xF0, 0x10, 0xF0] ++
  [0xF0, 0x90, 0xF0, 0x90, 0x90] ++ [0xE0, 0x90, 0xE0, 0x90, 0xE0] ++
  [0xF0, 0x80, 0x80, 0x80, 0xF0] ++ [0xE0, 0x90, 0x90, 0x90, 0xE0] ++
  [0xF0, 0x80, 0xF0, 0x80, 0xF0] ++ [0xF0, 0x80, 0xF0, 0x80, 0x80]

/-- What an unlisted address reads as: its content at reset, the font at 0x050..0x09F and 0 in every
other cell (R32, R51). -/
def resetByte (a : Nat) : Byte :=
  if a < Config.fontBase then 0#8 else fontData.getD (a - Config.fontBase) 0#8

/-- `MEM[a]`. -/
def Memory.read : Memory → Nat → Byte
  | [], a => resetByte a
  | (k, b) :: rest, a => if k = a then b else Memory.read rest a

/-- Put a cell in front of `rest` unless it holds what its address reads as unlisted. -/
def Memory.put (a : Nat) (b : Byte) (rest : Memory) : Memory :=
  if b = resetByte a then rest else (a, b) :: rest

/-- `MEM[a] <- b`, in canonical form. -/
def Memory.write : Memory → Nat → Byte → Memory
  | [], a, b => Memory.put a b []
  | (k, c) :: rest, a, b =>
    if a < k then Memory.put a b ((k, c) :: rest)
    else if a = k then Memory.put a b rest
    else (k, c) :: Memory.write rest a b

/-- The cells listed are canonical above address `low`: rising addresses in [low, 4096), and no
cell equal to what its address reads as unlisted. -/
def Memory.wfFrom : Nat → Memory → Bool
  | _, [] => true
  | low, (k, b) :: rest =>
    decide (low ≤ k) && decide (k < Config.memSize) && (b != resetByte k)
      && Memory.wfFrom (k + 1) rest

/-- The canonical form of memory. -/
def Memory.wf (m : Memory) : Bool := Memory.wfFrom 0 m

/-- The bytes at `a`, `a + 1`, … in that order (R57). -/
def Memory.readAll (m : Memory) : Nat → Nat → List Byte
  | _, 0 => []
  | a, n + 1 => Memory.read m a :: Memory.readAll m (a + 1) n

/-- Write a list of bytes at `a`, `a + 1`, … in that order (R57). -/
def Memory.writeAll (m : Memory) : Nat → List Byte → Memory
  | _, [] => m
  | a, b :: bs => Memory.writeAll (Memory.write m a b) (a + 1) bs

/-- The range check of every access (R55, R56): of the `n` addresses from `base`, computed without
wrapping, the lowest above 0xFFF, if there is one. It is `max(base, 0x1000)` (47_index_memory.md). -/
def firstOutside (base n : Nat) : Option Nat :=
  if n = 0 ∨ base + n ≤ Config.memSize then none else some (max base Config.memSize)

/-- `MemRead` of `n` bytes from `base`, or the address that faults (R55). -/
def Memory.readChecked (m : Memory) (base n : Nat) : Except Nat (List Byte) :=
  match firstOutside base n with
  | some a => .error a
  | none => .ok (Memory.readAll m base n)

/-- `MemWrite` of the bytes `bs` from `base`, or the address that faults: then nothing is written
(R55, R56). -/
def Memory.writeChecked (m : Memory) (base : Nat) (bs : List Byte) : Except Nat Memory :=
  match firstOutside base bs.length with
  | some a => .error a
  | none => .ok (Memory.writeAll m base bs)

end Sys2Proof.Machine
end

