-- ==== Sys2Proof/Machine/Ops.lean ====
section
/-! DEFINITION. The named operations over the state that the meanings share: one accessor pair per
register, fetching, raising a model fault (the machine's only exception, spec 60_exceptions.md
R214, R215, R219; there is no return from it, R220), the stack and the pixels. -/

namespace Sys2Proof.Machine

/-- What a meaning answers. -/
abbrev Outcome := Host.Outcome State Fault Refusal

/-- What a step of the CORE answers (R90). -/
abbrev CoreOutcome := Host.Outcome CoreState Fault Refusal

/-- Go on with the CORE in the state `c`; the random source stays where it is. -/
def State.goOn (s : State) (c : CoreState) : Outcome := .next { s with toCoreState := c }

namespace CoreState

/-! ## Registers -/

/-- Read `V[x]` (R21: no register is hardwired). -/
def getV (s : CoreState) (x : RegIdx) : Byte := s.v.get x

/-- `V[x] <- b`. -/
def setV (s : CoreState) (x : RegIdx) (b : Byte) : CoreState := { s with v := s.v.set x.val b x.isLt }

/-- `PC <- a`. -/
def setPC (s : CoreState) (a : Word) : CoreState := { s with pc := a }

/-- `I <- a`. -/
def setI (s : CoreState) (a : Word) : CoreState := { s with idx := a }

/-- `DT <- b`. -/
def setDT (s : CoreState) (b : Byte) : CoreState := { s with dt := b }

/-- `ST <- b`. -/
def setST (s : CoreState) (b : Byte) : CoreState := { s with st := b }

/-- Replace the memory array. -/
def setMem (s : CoreState) (m : Memory) : CoreState := { s with mem := m }

/-- Replace the framebuffer. -/
def setFB (s : CoreState) (fb : Framebuffer) : CoreState := { s with fb := fb }

/-- `MEM[a]`, one byte. -/
def readByte (s : CoreState) (a : Nat) : Byte := Memory.read s.mem a

/-- `PC <- (PC + 2) mod 2^16`: the fetch's increment, a skip's, and the key wait's last step
(R93, R123, R173). -/
def advance (s : CoreState) : CoreState := s.setPC (s.pc + 2#16)

/-! ## Fetch -/

/-- The opcode at PC, high byte first, or the address that faults (R93, R94, R53). -/
def fetchWord (s : CoreState) : Except Nat Word :=
  match firstOutside s.pc.toNat 2 with
  | some a => .error a
  | none => .ok (wordOfBytes (s.readByte s.pc.toNat) (s.readByte (s.pc.toNat + 1)))

/-! ## The call stack -/

/-- The two cases of 00EE (R120): the popped state, or the underflow diagnostic and nothing else. -/
def popCall (s : CoreState) : CoreState × Diag :=
  if h : s.sp.val = 0 then (s, .stackUnderflow)
  else
    ({ s with
        pc := s.stack.get ⟨s.sp.val - 1, by omega⟩
        sp := ⟨s.sp.val - 1, by omega⟩ }, .none)

/-- The two cases of 2nnn (R122): PC pushed and `target` entered, or the overflow diagnostic and
nothing else. -/
def pushCall (s : CoreState) (target : Word) : CoreState × Diag :=
  if h : s.sp.val < 16 then
    ({ s with
        stack := s.stack.set s.sp.val s.pc h
        sp := ⟨s.sp.val + 1, by omega⟩
        pc := target }, .none)
  else (s, .stackOverflow)

/-- Skip the next instruction when the condition holds (R123-R126, R170, R171). -/
def skipIf (s : CoreState) (c : Bool) : CoreState := if c then s.advance else s

/-! ## Register blocks -/

/-- The values of V0..Vx in rising order (R193). -/
def firstRegs (s : CoreState) (x : RegIdx) : List Byte := s.v.toList.take (x.val + 1)

/-- `V[from] <- b0; V[from + 1] <- b1; …` (R194). A byte past VF has no register; Fx65 gives none. -/
def setRegsFrom (s : CoreState) : Nat → List Byte → CoreState
  | _, [] => s
  | r, b :: bs => if h : r < 16 then (s.setV ⟨r, h⟩ b).setRegsFrom (r + 1) bs else s

/-! ## Model faults -/

/-- The PC before the step, seen from the execute phase, which runs after the fetch's increment
(R24, R215). -/
def faultPC (s : CoreState) : Word := s.pc - 2#16

/-- What a command that raised a model fault leaves: the state before it, with FAULT set (R215). -/
def recordFault (s : CoreState) (r : Fault) : CoreState := { s with fault := some r }

end CoreState

/-- Raise `AddressFault(addr)` from the execute phase of `i`: the step is discarded and the record of
R214 comes out. -/
def raiseAddress (i : Instr) (addr : Nat) (s : State) : Outcome :=
  .fault (.addressFault addr s.faultPC (some (encode i)))

/-- Raise `KeyIndexFault(k)` from the execute phase of `i`. -/
def raiseKeyIndex (i : Instr) (k : Byte) (s : State) : Outcome :=
  .fault (.keyIndexFault k s.faultPC (encode i))

/-- Go on with the result of a checked memory access, or raise its AddressFault. -/
def withAccess {α : Type} (i : Instr) (s : State) (r : Except Nat α) (k : α → CoreState) : Outcome :=
  match r with
  | .ok a => s.goOn (k a)
  | .error addr => raiseAddress i addr s

/-! ## Pixels -/

/-- `FB[px][py]`. -/
def pixel (fb : Framebuffer) (px : Column) (py : Row) : Bool := (fb.get py).get px

/-- `FB[px][py] <- b`. -/
def setPixel (fb : Framebuffer) (px : Column) (py : Row) (b : Bool) : Framebuffer :=
  fb.set py.val ((fb.get py).set px.val b px.isLt) py.isLt

/-- Every pixel off. -/
def blankScreen : Framebuffer := Vector.replicate 32 (Vector.replicate 64 false)

end Sys2Proof.Machine
end

