-- ==== Sys2Proof/Machine/Operands.lean ====
section
/-! DEFINITION. How operand fields become values (spec 30_encoding.md R72): immediates are unsigned and
zero-extended; and the operand of the shifts (00_scope.md R8). -/

namespace Sys2Proof.Machine

/-- `zext_16(nnn)`: an address in 0x000..0xFFF (R72). -/
def addrOf (nnn : BitVec 12) : Word := nnn.zeroExtend 16

/-- `zext_16` of a register's byte (R127, R190). -/
def zext16 (b : Byte) : Word := b.zeroExtend 16

/-- SHIFT_SOURCE of this hardware (R8). -/
def shiftSource : Config.ShiftSource := .vx

/-- The value 8xy6 and 8xyE shift, for either value of SHIFT_SOURCE (R157, R159). -/
def shiftOperand (src : Config.ShiftSource) (x y : RegIdx) (s : CoreState) : Byte :=
  match src with
  | .vx => s.getV x
  | .vy => s.getV y

/-- The key a register's byte names, when there is one (R175). -/
def keyOf (b : Byte) : Option KeyIdx := if h : b.toNat < 16 then some ⟨b.toNat, h⟩ else none

/-- The address of the glyph of a digit: 0x050 + 5*b over the whole byte, no mask (R191). -/
def glyphAddr (b : Byte) : Word := BitVec.ofNat 16 (Config.fontBase + Config.glyphBytes * b.toNat)

/-- The three decimal digits of a byte: hundreds, tens, units (R192). -/
def bcdDigits (b : Byte) : List Byte :=
  [BitVec.ofNat 8 (b.toNat / 100), BitVec.ofNat 8 (b.toNat / 10 % 10), BitVec.ofNat 8 (b.toNat % 10)]

/-- The columns 0..7 of a sprite row; column c shows bit 7 - c (R111). -/
def spriteColumns : List Nat := [0, 1, 2, 3, 4, 5, 6, 7]

/-- The pixels one sprite row touches, left to right, wrapped modulo 64 (R111). -/
def rowPixels (x0 : Nat) (py : Row) (row : Byte) : List (Column × Row) :=
  (spriteColumns.filter (fun c => row.getLsbD (7 - c))).map (fun c => (Fin.ofNat 64 (x0 + c), py))

/-- The pixels a sprite touches, row by row from `y0`, wrapped modulo 64 and 32 (R111). -/
def spritePixels (x0 : Nat) : Nat → List Byte → List (Column × Row)
  | _, [] => []
  | y, row :: rows => rowPixels x0 (Fin.ofNat 32 y) row ++ spritePixels x0 (y + 1) rows

end Sys2Proof.Machine
end

