-- ==== Sys2Proof/Machine/Flags.lean ====
section
/-! DEFINITION. Every flag computation of the spec: the six writers of VF (10_state.md R23), each flag
0x00 or 0x01 (44_alu.md R150). -/

namespace Sys2Proof.Machine

/-- The number of VF (R22). -/
def vf : RegIdx := 15

/-- A flag as the byte VF holds (R150). -/
def flagByte (b : Bool) : Byte := if b then 1#8 else 0#8

/-- Carry of 8xy4: the true sum exceeds 255 (R155). -/
def carry (a b : Byte) : Bool := decide (a.toNat + b.toNat > 255)

/-- NOT-borrow of a - b: the minuend is at least the subtrahend (R156, R158). -/
def notBorrow (a b : Byte) : Bool := decide (a.toNat ≥ b.toNat)

/-- The bit 8xy6 shifts out, bit 0 (R157). -/
def rightBit (a : Byte) : Bool := a.getLsbD 0

/-- The bit 8xyE shifts out, bit 7 (R159). -/
def leftBit (a : Byte) : Bool := a.getLsbD 7

/-- Collision of Dxyn: some touched pixel was on (R111). -/
def collision (fb : Framebuffer) (ps : List (Column × Row)) : Bool := ps.any (fun p => pixel fb p.1 p.2)

/-- Write the flag, then the result: with x = 0xF the result stays (R98, R160). -/
def CoreState.setFlagThenResult (s : CoreState) (flag : Bool) (x : RegIdx) (result : Byte) : CoreState :=
  (s.setV vf (flagByte flag)).setV x result

/-- XOR a 1 into every touched pixel; each pixel read is the one of before the draw (R98, R111). -/
def xorPixels (fb : Framebuffer) (ps : List (Column × Row)) : Framebuffer :=
  ps.foldl (fun acc p => setPixel acc p.1 p.2 (!pixel fb p.1 p.2)) fb

end Sys2Proof.Machine
end

