-- ==== Sys2Proof/Machine/Control.lean ====
section
/-! DEFINITION. The no-op 0nnn (spec 40_cycle.md R96) and the control-transfer instructions
(42_control_flow.md). In every meaning PC already holds the instruction's address + 2 (R93). -/

namespace Sys2Proof.Machine

/-- `0nnn`: nothing (R96). -/
def execSys (_nnn : BitVec 12) (s : State) : Outcome := s.goOn s.toCoreState

/-- An unknown opcode: nothing but the fetch's increment (R97). -/
def execUnknown (s : CoreState) : CoreState := s

/-- `00EE` (R120). -/
def execRet (s : State) : Outcome := s.goOn s.popCall.1

/-- `1nnn` (R121). -/
def execJp (nnn : BitVec 12) (s : State) : Outcome := s.goOn (s.setPC (addrOf nnn))

/-- `2nnn` (R122). -/
def execCall (nnn : BitVec 12) (s : State) : Outcome := s.goOn (s.pushCall (addrOf nnn)).1

/-- `3xkk` (R123). -/
def execSeImm (x : RegIdx) (kk : BitVec 8) (s : State) : Outcome := s.goOn (s.skipIf (s.getV x == kk))

/-- `4xkk` (R124). -/
def execSneImm (x : RegIdx) (kk : BitVec 8) (s : State) : Outcome := s.goOn (s.skipIf (s.getV x != kk))

/-- `5xy0` (R125). -/
def execSeReg (x y : RegIdx) (s : State) : Outcome := s.goOn (s.skipIf (s.getV x == s.getV y))

/-- `9xy0` (R126). -/
def execSneReg (x y : RegIdx) (s : State) : Outcome := s.goOn (s.skipIf (s.getV x != s.getV y))

/-- `Bnnn`: a 16-bit sum, not truncated to 12 bits (R127). -/
def execJpV0 (nnn : BitVec 12) (s : State) : Outcome :=
  s.goOn (s.setPC (addrOf nnn + zext16 (s.getV 0)))

end Sys2Proof.Machine
end

