-- ==== Sys2Proof/Machine/Keypad.lean ====
section
/-! DEFINITION. The keypad instructions, the key wait and its latch (spec 45_keypad.md). -/

namespace Sys2Proof.Machine

/-- Skip when the key numbered `V[x]` is at level `level`, or raise KeyIndexFault (R170, R171, R175). -/
def skipOnKey (i : Instr) (x : RegIdx) (level : Bool) (s : State) : Outcome :=
  match keyOf (s.getV x) with
  | some k => s.goOn (s.skipIf (s.key.get k == level))
  | none => raiseKeyIndex i (s.getV x) s

/-- `Ex9E` (R170). -/
def execSkp (x : RegIdx) (s : State) : Outcome := skipOnKey (.skp x) x true s

/-- `ExA1` (R171). -/
def execSknp (x : RegIdx) (s : State) : Outcome := skipOnKey (.sknp x) x false s

/-- `Fx0A`: the key wait begins and PC goes back to this instruction (R172). -/
def execLdKey (x : RegIdx) (s : State) : Outcome :=
  s.goOn { s.toCoreState with wait := true, waitReg := x, latch := none, pc := s.pc - 2#16 }

/-- What `step` does while WAIT = 1: nothing until a key is latched, then the key goes to
`V[WAITREG]` and PC passes the Fx0A (R173). -/
def keyWaitPass (s : CoreState) : CoreState :=
  match s.latch with
  | none => s
  | some k =>
    { (s.setV s.waitReg (BitVec.ofNat 8 k.val)).advance with wait := false, latch := none }

/-- The latch update of `set_input(k, p)`: the first released-to-pressed report of a key wait is
kept (R174). -/
def latchKey (k : KeyIdx) (p : Bool) (s : CoreState) : CoreState :=
  if s.wait && s.latch.isNone && p && !s.key.get k then { s with latch := some k } else s

end Sys2Proof.Machine
end

