-- ==== Sys2Proof/Machine/Cycle.lean ====
section
/-! DEFINITION. The fetch-decode-execute cycle (spec 40_cycle.md R90-R95, priority 60_exceptions.md R218),
as a function of how an instruction executes. -/

namespace Sys2Proof.Machine

/-- What the next `step` has to do, by the priority of R218. -/
inductive Work where
  /-- FAULT is set: no step (R216) -/
  | frozen (record : Fault)
  /-- WAIT = 1: the key-wait pass only (R91, R173) -/
  | keyWait
  /-- the fetch reaches an address above 0xFFF (R94) -/
  | fetchFault (addr : Nat)
  /-- the opcode matches no instruction (R97) -/
  | unknown (op : Word)
  /-- a decoded instruction -/
  | run (i : Instr)
  deriving DecidableEq, Repr

/-- What follows a fetch (R95). -/
def workOfFetch : Except Nat Word → Work
  | .error addr => .fetchFault addr
  | .ok op =>
    match decodeWord op with
    | .ok i => .run i
    | .error _ => .unknown op

/-- The priority within one step (R218). -/
def CoreState.nextWork (s : CoreState) : Work :=
  match s.fault with
  | some r => .frozen r
  | none => if s.wait then .keyWait else workOfFetch s.fetchWord

/-- One `step` of the CORE (R90, R93): `execute i` runs an instruction on the state after the fetch, and
`goOn` answers a state that no instruction made. -/
def cycle {σ : Type} (s : CoreState) (goOn : CoreState → Host.Outcome σ Fault Refusal)
    (execute : Instr → CoreState → Host.Outcome σ Fault Refusal) : Host.Outcome σ Fault Refusal :=
  match s.nextWork with
  | .frozen r => .refused (.machineFaulted r)
  | .keyWait => goOn (keyWaitPass s)
  | .fetchFault addr => .fault (.addressFault addr s.pc none)
  | .unknown _ => goOn (execUnknown s.advance)
  | .run i => execute i s.advance

/-- The diagnostic an instruction reports from the state after the fetch (R92): only 00EE and 2nnn
report one. -/
def reported (i : Instr) (s : CoreState) : Diag :=
  match i with
  | .ret => s.popCall.2
  | .call nnn => (s.pushCall (addrOf nnn)).2
  | .cls | .sys _ | .jp _ | .seImm _ _ | .sneImm _ _ | .seReg _ _ | .ldImm _ _
  | .addImm _ _ | .ldReg _ _ | .orReg _ _ | .andReg _ _ | .xorReg _ _ | .addReg _ _ | .sub _ _
  | .shr _ _ | .subn _ _ | .shl _ _ | .sneReg _ _ | .ldI _ | .jpV0 _ | .rnd _ _ | .drw _ _ _
  | .skp _ | .sknp _ | .ldFromDT _ | .ldKey _ | .ldDT _ | .ldST _ | .addI _ | .ldF _ | .ldB _
  | .store _ | .load _ => .none

/-- The diagnostic `step` returns (R92, R97, R173). -/
def CoreState.stepDiag (s : CoreState) : Diag :=
  match s.nextWork with
  | .run i => reported i s.advance
  | .unknown _ => .unknownOpcode
  | .frozen _ | .keyWait | .fetchFault _ => .none

/-- The code of a diagnostic (R210). -/
def Diag.code : Diag → Nat
  | .none => 0
  | .stackOverflow => 1
  | .stackUnderflow => 2
  | .unknownOpcode => 3
  | .romTooLarge => 4

end Sys2Proof.Machine
end

