-- ==== Sys2Proof/Machine/Alu.lean ====
section
/-! DEFINITION. The register ALU instructions, family 8 (spec 44_alu.md). Operands are read before any
write; the flag is written before the result (R98, R160). -/

namespace Sys2Proof.Machine

/-- `8xy0` (R151). -/
def execLdReg (x y : RegIdx) (s : State) : Outcome := s.goOn (s.setV x (s.getV y))

/-- `8xy1`; VF is not reset (R152). -/
def execOrReg (x y : RegIdx) (s : State) : Outcome := s.goOn (s.setV x (s.getV x ||| s.getV y))

/-- `8xy2`; VF is not reset (R153). -/
def execAndReg (x y : RegIdx) (s : State) : Outcome := s.goOn (s.setV x (s.getV x &&& s.getV y))

/-- `8xy3`; VF is not reset (R154). -/
def execXorReg (x y : RegIdx) (s : State) : Outcome := s.goOn (s.setV x (s.getV x ^^^ s.getV y))

/-- `8xy4` (R155). -/
def execAddReg (x y : RegIdx) (s : State) : Outcome :=
  s.goOn (s.setFlagThenResult (carry (s.getV x) (s.getV y)) x (s.getV x + s.getV y))

/-- `8xy5` (R156). -/
def execSub (x y : RegIdx) (s : State) : Outcome :=
  s.goOn (s.setFlagThenResult (notBorrow (s.getV x) (s.getV y)) x (s.getV x - s.getV y))

/-- `8xy6` (R157). -/
def execShr (x y : RegIdx) (s : State) : Outcome :=
  let a := shiftOperand shiftSource x y s.toCoreState
  s.goOn (s.setFlagThenResult (rightBit a) x (a >>> 1))

/-- `8xy7` (R158). -/
def execSubn (x y : RegIdx) (s : State) : Outcome :=
  s.goOn (s.setFlagThenResult (notBorrow (s.getV y) (s.getV x)) x (s.getV y - s.getV x))

/-- `8xyE` (R159). -/
def execShl (x y : RegIdx) (s : State) : Outcome :=
  let a := shiftOperand shiftSource x y s.toCoreState
  s.goOn (s.setFlagThenResult (leftBit a) x (a <<< 1))

end Sys2Proof.Machine
end

