-- ==== Sys2Proof/Machine/Display.lean ====
section
/-! DEFINITION. The framebuffer writer (spec 41_display.md). -/

namespace Sys2Proof.Machine

/-- `00E0` (R110). -/
def execCls (s : State) : Outcome := s.goOn (s.setFB blankScreen)

/-- Draw the sprite whose row bytes are `rows` at (V[x] mod 64, V[y] mod 32): the pixels first, then
VF <- collision (R111). -/
def drawSprite (x y : RegIdx) (rows : List Byte) (s : CoreState) : CoreState :=
  let ps := spritePixels ((s.getV x).toNat % 64) ((s.getV y).toNat % 32) rows
  (s.setFB (xorPixels s.fb ps)).setV vf (flagByte (collision s.fb ps))

/-- `Dxyn` (R111): all reads first, and an address above 0xFFF faults before any write. -/
def execDrw (x y : RegIdx) (n : Fin 16) (s : State) : Outcome :=
  withAccess (.drw x y n) s (Memory.readChecked s.mem s.idx.toNat n.val)
    (fun rows => drawSprite x y rows s.toCoreState)

end Sys2Proof.Machine
end

