-- ==== Sys2Proof/Machine/Immediate.lean ====
section
/-! DEFINITION. Immediate loads, immediate add, index load and random (spec 43_immediate.md). -/

namespace Sys2Proof.Machine

/-- `6xkk` (R140). -/
def execLdImm (x : RegIdx) (kk : BitVec 8) (s : State) : Outcome := s.goOn (s.setV x kk)

/-- `7xkk`: mod 256, no flag (R141). -/
def execAddImm (x : RegIdx) (kk : BitVec 8) (s : State) : Outcome := s.goOn (s.setV x (s.getV x + kk))

/-- `Annn` (R142). -/
def execLdI (nnn : BitVec 12) (s : State) : Outcome := s.goOn (s.setI (addrOf nnn))

/-- One more byte has been drawn from the random source (log entry 1). -/
def State.countDraw (s : State) : State := { s with draws := s.draws + 1 }

/-- What `Cxkk` does with the random input `r` (R143). -/
def execRndWith (r : Byte) (x : RegIdx) (kk : BitVec 8) (s : CoreState) : CoreState := s.setV x (r &&& kk)

/-- `Cxkk` with the random source's next byte, a free value (R9, R143). -/
def execRnd (x : RegIdx) (kk : BitVec 8) (s : State) : Outcome :=
  s.countDraw.goOn (execRndWith (Config.randomByte s.draws) x kk s.toCoreState)

end Sys2Proof.Machine
end

