-- ==== Sys2Proof/Machine/IndexMemory.lean ====
section
/-! DEFINITION. Index arithmetic, font address and memory block instructions (spec
47_index_memory.md). A faulting instruction writes nothing. -/

namespace Sys2Proof.Machine

/-- `Fx1E`: mod 2^16, no flag (R190). -/
def execAddI (x : RegIdx) (s : State) : Outcome := s.goOn (s.setI (s.idx + zext16 (s.getV x)))

/-- `Fx29` (R191). -/
def execLdF (x : RegIdx) (s : State) : Outcome := s.goOn (s.setI (glyphAddr (s.getV x)))

/-- `Fx33` (R192). -/
def execLdB (x : RegIdx) (s : State) : Outcome :=
  withAccess (.ldB x) s (Memory.writeChecked s.mem s.idx.toNat (bcdDigits (s.getV x))) s.setMem

/-- `Fx55`; I is unchanged (R193). -/
def execStore (x : RegIdx) (s : State) : Outcome :=
  withAccess (.store x) s (Memory.writeChecked s.mem s.idx.toNat (s.firstRegs x)) s.setMem

/-- `Fx65`; I is unchanged (R194). -/
def execLoad (x : RegIdx) (s : State) : Outcome :=
  withAccess (.load x) s (Memory.readChecked s.mem s.idx.toNat (x.val + 1)) (s.setRegsFrom 0)

end Sys2Proof.Machine
end

