-- ==== Sys2Proof/Machine/Timers.lean ====
section
/-! DEFINITION. Timer access (spec 46_timer_access.md) and the countdown (60_exceptions.md R222). -/

namespace Sys2Proof.Machine

/-- `Fx07` (R180). -/
def execLdFromDT (x : RegIdx) (s : State) : Outcome := s.goOn (s.setV x s.dt)

/-- `Fx15` (R181). -/
def execLdDT (x : RegIdx) (s : State) : Outcome := s.goOn (s.setDT (s.getV x))

/-- `Fx18` (R182). -/
def execLdST (x : RegIdx) (s : State) : Outcome := s.goOn (s.setST (s.getV x))

/-- One tick of a timer: down by one, never below 0 (R222). -/
def countDown (t : Byte) : Byte := if t = 0#8 then 0#8 else t - 1#8

end Sys2Proof.Machine
end

