-- ==== Sys2Proof/Machine/Step.lean ====
section
/-! DEFINITION. The `step` command (spec 40_cycle.md R90) and where the host places an instruction word
for it to fetch. -/

namespace Sys2Proof.Machine

/-- One step; a Cxkk draws the random source's next byte. -/
def step (s : State) : Host.Outcome State Fault Refusal :=
  cycle s.toCoreState s.goOn (fun i c => exec i { s with toCoreState := c })

/-- Where `withFetchWord` puts the word: at PC, or at the program base when PC has no two bytes of
memory to fetch from. -/
def CoreState.fetchSlot (s : CoreState) : Word := if s.pc.toNat + 2 ≤ Config.memSize then s.pc else 0x200#16

/-- `s` with the opcode of a table word stored, high byte first, where the next step fetches. The fetch
needs FAULT = none, WAIT = 0 and PC in range (R218), so these three are set; all else is kept. -/
def State.withFetchWord (s : State) (nbits w : Nat) : State :=
  { s with
    mem := Memory.write (Memory.write s.mem s.fetchSlot.toNat (highByte (tableWord nbits w)))
      (s.fetchSlot.toNat + 1) (lowByte (tableWord nbits w))
    pc := s.fetchSlot
    wait := false
    fault := none }

end Sys2Proof.Machine
end

