-- ==== Sys2Proof/Machine/Commands.lean ====
section
/-! DEFINITION. The host interface (spec 60_exceptions.md R230-R237, 70_reset_and_hazards.md R256): the
host's commands as transitions of the CORE's state, `CoreState`, and nothing else (R20). A run is a finite
sequence of them (R237). `step` of the interface draws its random byte itself; here it is an input (R9, R37). -/

namespace Sys2Proof.Machine

/-- The commands and their inputs (R230). A key number outside 0..15 cannot be written (R233). -/
inductive Command where
  | load (rom : List Byte)
  | step (rnd : Byte)
  | tickTimers
  | setInput (k : KeyIdx) (pressed : Bool)
  | setInputs (levels : Vector Bool 16)
  | framebufferSnapshot
  | isSoundActive
  deriving DecidableEq, Repr

/-- The outputs of the commands (R230). -/
inductive Output where
  | none
  | diag (d : Diag)
  | pixels (fb : Framebuffer)
  | sound (active : Bool)
  deriving DecidableEq, Repr

/-- How a command ends. -/
inductive Reply where
  /-- the command took place -/
  | done (s : CoreState) (out : Output)
  /-- it raised a model fault: the state before it, with FAULT set (R215) -/
  | faulted (s : CoreState)
  /-- it has no transition (R216) -/
  | refused (r : Refusal)
  deriving DecidableEq, Repr

/-- The CORE's part of an outcome. -/
def coreOutcome : Outcome → CoreOutcome
  | .next t => .next t.toCoreState
  | .fault f => .fault f
  | .refused r => .refused r

/-- Execute(ins, RND) of R90 on the CORE's state: Cxkk alone reads RND (R9). No other meaning reads or moves
the random source, so any place stands for it. -/
def CoreState.executeWith (s : CoreState) (rnd : Byte) (i : Instr) : CoreOutcome :=
  match i with
  | .rnd x kk => .next (execRndWith rnd x kk s)
  | other => coreOutcome (exec other { toCoreState := s, draws := 0 })

/-- The host's `step(RND)` (R90, R230). -/
def CoreState.stepWith (s : CoreState) (rnd : Byte) : CoreOutcome :=
  cycle s .next (fun i c => c.executeWith rnd i)

/-- `load(rom)`: all or nothing (R256). -/
def loadRom (rom : List Byte) (s : CoreState) : CoreState × Diag :=
  if rom.length > Config.romMax then (s, .romTooLarge)
  else (s.setMem (Memory.writeAll s.mem Config.progBase rom), .none)

/-- `tick_timers()` (R222). -/
def tickTimers (s : CoreState) : CoreState := (s.setDT (countDown s.dt)).setST (countDown s.st)

/-- `set_input(k, p)`: the latch first, then the level (R174, R233). -/
def setInput (k : KeyIdx) (p : Bool) (s : CoreState) : CoreState :=
  { latchKey k p s with key := s.key.set k.val p k.isLt }

/-- The sixteen keys in rising order. -/
def allKeys : List KeyIdx := [0, 1, 2, 3, 4, 5, 6, 7, 8, 9, 10, 11, 12, 13, 14, 15]

/-- `set_inputs(vec)`: `set_input` of every key in rising order (R234). -/
def setInputs (levels : Vector Bool 16) (s : CoreState) : CoreState :=
  allKeys.foldl (fun t k => setInput k (levels.get k) t) s

/-- `is_sound_active() = (ST > 0)` (R224). -/
def isSoundActive (s : CoreState) : Bool := decide (s.st.toNat > 0)

/-- `step(RND)` as the host sees it: the diagnostic with the next state, or the fault recorded (R215). -/
def commandStep (rnd : Byte) (s : CoreState) : Reply :=
  match s.stepWith rnd with
  | .next t => .done t (.diag s.stepDiag)
  | .fault r => .faulted (s.recordFault r)
  | .refused r => .refused r

/-- A command that changes the state runs only while FAULT = none (R216). -/
def whileRunning (s : CoreState) (reply : Reply) : Reply :=
  match s.fault with
  | some r => .refused (.machineFaulted r)
  | none => reply

/-- One command: atomic, accepted in every state with FAULT = none (R231, R232); the two reads are
answered in every state (R216, R224, R235). -/
def command (c : Command) (s : CoreState) : Reply :=
  match c with
  | .load rom => whileRunning s (.done (loadRom rom s).1 (.diag (loadRom rom s).2))
  | .step rnd => whileRunning s (commandStep rnd s)
  | .tickTimers => whileRunning s (.done (tickTimers s) .none)
  | .setInput k p => whileRunning s (.done (setInput k p s) .none)
  | .setInputs levels => whileRunning s (.done (setInputs levels s) .none)
  | .framebufferSnapshot => .done s (.pixels s.fb)
  | .isSoundActive => .done s (.sound (isSoundActive s))

/-- The state a command leaves; a refused command leaves it as it was (93_implementation_defined.md). -/
def afterCommand (c : Command) (s : CoreState) : CoreState :=
  match command c s with
  | .done t _ => t
  | .faulted t => t
  | .refused _ => s

/-- The state after a sequence of commands (R237). -/
def runCommands (cs : List Command) (s : CoreState) : CoreState := cs.foldl (fun t c => afterCommand c t) s

end Sys2Proof.Machine
end

