-- ==== Sys2Proof/Safety.lean ====
section
/-! DEFINITION. The terms the claims use: the parts of the machine a transition may change, the
invariants, and what a safe run is (spec 60_exceptions.md R216: every claim takes FAULT = none). -/

namespace Sys2Proof.Machine

/-- The separately named parts of the CORE's state: each register, stack slot, byte of memory, pixel and key
on its own. -/
inductive Part where
  | v (x : RegIdx)
  | pc
  | idx
  | sp
  | slot (j : SlotIdx)
  | dt
  | st
  | byte (a : Nat)
  | pixel (px : Column) (py : Row)
  | key (k : KeyIdx)
  | wait
  | waitReg
  | latch
  | fault
  deriving DecidableEq, Repr

/-- The part reads the same in both states; a byte of memory through the model's read of one byte. -/
def Part.same (p : Part) (s t : CoreState) : Prop :=
  match p with
  | .v x => t.getV x = s.getV x
  | .pc => t.pc = s.pc
  | .idx => t.idx = s.idx
  | .sp => t.sp = s.sp
  | .slot j => t.stack.get j = s.stack.get j
  | .dt => t.dt = s.dt
  | .st => t.st = s.st
  | .byte a => t.readByte a = s.readByte a
  | .pixel px py => Machine.pixel t.fb px py = Machine.pixel s.fb px py
  | .key k => t.key.get k = s.key.get k
  | .wait => t.wait = s.wait
  | .waitReg => t.waitReg = s.waitReg
  | .latch => t.latch = s.latch
  | .fault => t.fault = s.fault

/-- The frame of a transition from `s` to `t`: every part but those that `may` names is unchanged. -/
def OnlyChanges (may : Part → Prop) (s t : CoreState) : Prop := ∀ p, ¬ may p → p.same s t

/-- The opcode `w` stands for `i`, and the execute phase of `i` on `s` completes: it reports `d` and
answers a next state whose CORE part is `t` with `P t`. The random source stays where it is, wherever it
is. -/
def Completes (w : Word) (i : Instr) (s : CoreState) (d : Diag) (P : CoreState → Prop) : Prop :=
  decodeWord w = .ok i ∧ reported i s = d ∧
    ∃ t, (∀ n, exec i { toCoreState := s, draws := n } = .next { toCoreState := t, draws := n }) ∧ P t

/-- The invariant of the machine: memory is canonical (so every listed address is in 0x000..0xFFF), and
a key is latched only during a key wait (R40, R174). -/
def CoreState.Inv (s : CoreState) : Prop :=
  Memory.wf s.mem = true ∧ (s.latch ≠ none → s.wait = true)

/-- During a key wait PC holds the address of the Fx0A that began it, whose x is WAITREG (R24, R39). -/
def CoreState.WaitsAtItsInstruction (s : CoreState) : Prop :=
  s.wait = true → s.fetchWord = .ok (encode (.ldKey s.waitReg))

/-- The next step fetches: no fault and no key wait (R218). -/
def CoreState.Fetching (s : CoreState) : Prop := s.fault = none ∧ s.wait = false

/-- A run of host commands is safe when it ends with FAULT = none; FAULT is never cleared, so it was
none all along (R41, R216). -/
def SafeRun (cs : List Command) (s : CoreState) : Prop := (runCommands cs s).fault = none

end Sys2Proof.Machine
end

