-- ==== Sys2Proof/Certificates/Slice0/Obligations.lean ====
section
/-! DEFINITION. The statements for the provers, in the order of the spec's files. A docstring names the
rule a statement formalises, and the decision D<n> of 92_eei_decisions.md where a clause rests on the
spec's own choice (such a statement is 'derived' in OBLIGATIONS.json). Where a statement assumes
`Memory.wf s.mem`, it is because the byte laws hold of canonical memories; StepKeepsInvariant and
ResetMeetsInvariant say every run has one. -/

open Sys2Proof Sys2Proof.Machine

/-! ## Encoding -/

/-- Decoding the two bytes of a well-formed instruction gives it back, with every operand (R70-R82). -/
def Obligations.DecodeOfEncodeGivesTheInstruction : Prop :=
  ∀ (i : Instr) (rest : List Byte), i.wf = true →
    decode (highByte (encode i) :: lowByte (encode i) :: rest) = .ok (i, rest)

/-- Each decoded opcode has one meaning: encoding what was decoded gives the opcode back (R82). -/
def Obligations.EncodeOfDecodeGivesTheOpcode : Prop :=
  ∀ (op : Word) (i : Instr), decodeWord op = .ok i → encode i = op ∧ i.wf = true

/-- The families decoded on a second level: 0 (R75), 8 (R76), E (R77) and F (R78). -/
def Obligations.SecondLevelFamiliesDecode : Prop :=
  (decodeWord 0x00E0#16 = .ok .cls ∧ decodeWord 0x00EE#16 = .ok .ret ∧
    ∀ nnn : BitVec 12, nnn ≠ 0x0E0#12 → nnn ≠ 0x0EE#12 →
      decodeWord (opNNN 0x0#4 nnn) = .ok (.sys nnn)) ∧
  (∀ x y : RegIdx,
    decodeWord (opXYN 0x8#4 x y 0x0#4) = .ok (.ldReg x y) ∧
    decodeWord (opXYN 0x8#4 x y 0x1#4) = .ok (.orReg x y) ∧
    decodeWord (opXYN 0x8#4 x y 0x2#4) = .ok (.andReg x y) ∧
    decodeWord (opXYN 0x8#4 x y 0x3#4) = .ok (.xorReg x y) ∧
    decodeWord (opXYN 0x8#4 x y 0x4#4) = .ok (.addReg x y) ∧
    decodeWord (opXYN 0x8#4 x y 0x5#4) = .ok (.sub x y) ∧
    decodeWord (opXYN 0x8#4 x y 0x6#4) = .ok (.shr x y) ∧
    decodeWord (opXYN 0x8#4 x y 0x7#4) = .ok (.subn x y) ∧
    decodeWord (opXYN 0x8#4 x y 0xE#4) = .ok (.shl x y) ∧
    ∀ n ∈ [0x8#4, 0x9#4, 0xA#4, 0xB#4, 0xC#4, 0xD#4, 0xF#4],
      decodeWord (opXYN 0x8#4 x y n) = .error (.unknownOpcode (opXYN 0x8#4 x y n))) ∧
  (∀ x : RegIdx,
    decodeWord (opXKK 0xE#4 x 0x9E#8) = .ok (.skp x) ∧
    decodeWord (opXKK 0xE#4 x 0xA1#8) = .ok (.sknp x) ∧
    ∀ kk : BitVec 8, kk ∉ [0x9E#8, 0xA1#8] →
      decodeWord (opXKK 0xE#4 x kk) = .error (.unknownOpcode (opXKK 0xE#4 x kk))) ∧
  (∀ x : RegIdx,
    decodeWord (opXKK 0xF#4 x 0x07#8) = .ok (.ldFromDT x) ∧
    decodeWord (opXKK 0xF#4 x 0x0A#8) = .ok (.ldKey x) ∧
    decodeWord (opXKK 0xF#4 x 0x15#8) = .ok (.ldDT x) ∧
    decodeWord (opXKK 0xF#4 x 0x18#8) = .ok (.ldST x) ∧
    decodeWord (opXKK 0xF#4 x 0x1E#8) = .ok (.addI x) ∧
    decodeWord (opXKK 0xF#4 x 0x29#8) = .ok (.ldF x) ∧
    decodeWord (opXKK 0xF#4 x 0x33#8) = .ok (.ldB x) ∧
    decodeWord (opXKK 0xF#4 x 0x55#8) = .ok (.store x) ∧
    decodeWord (opXKK 0xF#4 x 0x65#8) = .ok (.load x) ∧
    ∀ kk : BitVec 8, kk ∉ [0x07#8, 0x0A#8, 0x15#8, 0x18#8, 0x1E#8, 0x29#8, 0x33#8, 0x55#8, 0x65#8] →
      decodeWord (opXKK 0xF#4 x kk) = .error (.unknownOpcode (opXKK 0xF#4 x kk)))

/-- The unknown opcodes are exactly those of the table of R80 (families 5 and 9 by D11). -/
def Obligations.UnknownOpcodesAreExactlyTheTable : Prop :=
  ∀ op : Word, decodeWord op = .error (.unknownOpcode op) ↔
    ((fieldF op = 0x5#4 ∧ fieldN op ≠ 0#4) ∨
     (fieldF op = 0x8#4 ∧ fieldN op ∈ [0x8#4, 0x9#4, 0xA#4, 0xB#4, 0xC#4, 0xD#4, 0xF#4]) ∨
     (fieldF op = 0x9#4 ∧ fieldN op ≠ 0#4) ∨
     (fieldF op = 0xE#4 ∧ fieldKK op ∉ [0x9E#8, 0xA1#8]) ∨
     (fieldF op = 0xF#4 ∧
      fieldKK op ∉ [0x07#8, 0x0A#8, 0x15#8, 0x18#8, 0x1E#8, 0x29#8, 0x33#8, 0x55#8, 0x65#8]))

/-- One word of each family, written out from the "encoding" column of the opcode table. -/
def Obligations.WrittenOutWordsDecode : Prop :=
  decodeTableWord 16 0b0000000011100000 = some .cls ∧
  decodeTableWord 16 0b0010001100000000 = some (.call 0x300#12) ∧
  decodeTableWord 16 0b0111001000000011 = some (.addImm 2 0x03#8) ∧
  decodeTableWord 16 0b1000000100100101 = some (.sub 1 2) ∧
  decodeTableWord 16 0b1101101111000101 = some (.drw 0xB 0xC 5) ∧
  decodeTableWord 16 0b1110010110011110 = some (.skp 5) ∧
  decodeTableWord 16 0b1111001000010101 = some (.ldDT 2) ∧
  decodeTableWord 16 0b1111001001100101 = some (.load 2) ∧
  decodeTableWord 16 0b1000000000011000 = none

/-! ## Reset -/

/-- The machine after construction (R251; the zeros are D2 and D3, the font bytes D4). -/
def Obligations.ResetState : Prop :=
  (∀ x, State.reset.getV x = 0#8) ∧ State.reset.pc = 0x200#16 ∧ State.reset.idx = 0#16 ∧
  State.reset.sp.val = 0 ∧ (∀ j, State.reset.stack.get j = 0#16) ∧ State.reset.dt = 0#8 ∧
  State.reset.st = 0#8 ∧ (∀ px py, pixel State.reset.fb px py = false) ∧
  (∀ k, State.reset.key.get k = false) ∧ State.reset.wait = false ∧ State.reset.waitReg = 0 ∧
  State.reset.latch = none ∧ State.reset.fault = none ∧
  Memory.readAll State.reset.mem 0x050 80 =
    [0xF0#8, 0x90#8, 0x90#8, 0x90#8, 0xF0#8] ++ [0x20#8, 0x60#8, 0x20#8, 0x20#8, 0x70#8] ++
    [0xF0#8, 0x10#8, 0xF0#8, 0x80#8, 0xF0#8] ++ [0xF0#8, 0x10#8, 0xF0#8, 0x10#8, 0xF0#8] ++
    [0x90#8, 0x90#8, 0xF0#8, 0x10#8, 0x10#8] ++ [0xF0#8, 0x80#8, 0xF0#8, 0x10#8, 0xF0#8] ++
    [0xF0#8, 0x80#8, 0xF0#8, 0x90#8, 0xF0#8] ++ [0xF0#8, 0x10#8, 0x20#8, 0x40#8, 0x40#8] ++
    [0xF0#8, 0x90#8, 0xF0#8, 0x90#8, 0xF0#8] ++ [0xF0#8, 0x90#8, 0xF0#8, 0x10#8, 0xF0#8] ++
    [0xF0#8, 0x90#8, 0xF0#8, 0x90#8, 0x90#8] ++ [0xE0#8, 0x90#8, 0xE0#8, 0x90#8, 0xE0#8] ++
    [0xF0#8, 0x80#8, 0x80#8, 0x80#8, 0xF0#8] ++ [0xE0#8, 0x90#8, 0x90#8, 0x90#8, 0xE0#8] ++
    [0xF0#8, 0x80#8, 0xF0#8, 0x80#8, 0xF0#8] ++ [0xF0#8, 0x80#8, 0xF0#8, 0x80#8, 0x80#8] ∧
  (∀ a, a < 0x050 ∨ 0x0A0 ≤ a → State.reset.readByte a = 0#8)

/-- The reset state has the invariants, and its first step fetches (R252, R253). The memory part of `Inv`,
the canonical form `Memory.wf`, is the model's own choice (log entry 27), no rule of the spec. -/
def Obligations.ResetMeetsInvariant : Prop :=
  State.reset.Inv ∧ State.reset.WaitsAtItsInstruction ∧ State.reset.Fetching

/-- With no program loaded, 1792 steps run the zeroed memory and the next one faults (R257). -/
def Obligations.ResetRunReachesTheEndOfMemory : Prop :=
  (∀ k, k ≤ 1792 → ∃ t, Sys2Proof.core.run k State.reset = .next t ∧ t.pc.toNat = 0x200 + 2 * k) ∧
  Sys2Proof.core.run 1793 State.reset = .fault (.addressFault 0x1000 0x1000#16 none)

/-! ## The cycle -/

/-- A step runs the instruction it fetched, on the state whose PC is two further (R93). -/
def Obligations.StepRunsTheDecodedInstruction : Prop :=
  ∀ (s : State) (i : Instr), s.fault = none → s.wait = false → s.pc.toNat + 1 ≤ 0xFFF →
    decodeWord (wordOfBytes (s.readByte s.pc.toNat) (s.readByte (s.pc.toNat + 1))) = .ok i →
    step s = exec i { s with pc := s.pc + 2#16 }

/-- An unknown opcode is a no-op that reports UnknownOpcode (R97). -/
def Obligations.UnknownOpcodeIsReportedNoOp : Prop :=
  ∀ (s : State) (r : Rejected), s.fault = none → s.wait = false → s.pc.toNat + 1 ≤ 0xFFF →
    decodeWord (wordOfBytes (s.readByte s.pc.toNat) (s.readByte (s.pc.toNat + 1))) = .error r →
    s.stepDiag = .unknownOpcode ∧
    ∃ t, step s = .next t ∧ t.pc = s.pc + 2#16 ∧ t.draws = s.draws ∧
      OnlyChanges (fun p => p = .pc) s.toCoreState t.toCoreState

/-- A fetch that reaches past 0xFFF faults (R94; the fault is D5). -/
def Obligations.FetchPastMemoryFaults : Prop :=
  ∀ s : State, s.fault = none → s.wait = false →
    (s.pc.toNat > 0xFFF → step s = .fault (.addressFault s.pc.toNat s.pc none)) ∧
    (s.pc.toNat = 0xFFF → step s = .fault (.addressFault 0x1000 s.pc none))

/-- During a key wait a step does the key-wait pass and nothing else (R91, R173; the
mechanism is D15, the delivery of a released key D27, the diagnostic D28). -/
def Obligations.KeyWaitPassDeliversTheLatchedKey : Prop :=
  ∀ s : State, s.fault = none → s.wait = true → s.stepDiag = .none ∧
    (s.latch = none → step s = .next s) ∧
    (∀ k : KeyIdx, s.latch = some k →
      ∃ t, step s = .next t ∧ (t.getV s.waitReg).toNat = k.val ∧ t.wait = false ∧
        t.latch = none ∧ t.pc = s.pc + 2#16 ∧ t.draws = s.draws ∧
        OnlyChanges (fun p => p = .v s.waitReg ∨ p = .wait ∨ p = .latch ∨ p = .pc)
          s.toCoreState t.toCoreState)

/-- A running machine never refuses a step: it goes on without setting FAULT, or it faults (R218). -/
def Obligations.RunningMachineGoesOnOrFaults : Prop :=
  ∀ s : State, s.fault = none →
    (∃ t, step s = .next t ∧ t.fault = none) ∨ (∃ f, step s = .fault f)

/-- The diagnostic of a step, exactly (R92, R97, R120, R122). -/
def Obligations.StepDiagnosticIsExact : Prop :=
  ∀ s : CoreState,
    (s.stepDiag = .stackUnderflow ↔ s.nextWork = .run .ret ∧ s.sp.val = 0) ∧
    (s.stepDiag = .stackOverflow ↔ (∃ nnn, s.nextWork = .run (.call nnn)) ∧ s.sp.val = 16) ∧
    (s.stepDiag = .unknownOpcode ↔ ∃ op, s.nextWork = .unknown op) ∧
    s.stepDiag ≠ .romTooLarge

/-- The interface's step is the CORE's step with the byte the random source gives, and moves the source on
by one byte exactly when it runs a Cxkk (log entry 1); no other instruction reads the random input (R9,
R143). -/
def Obligations.StepDrawsItsRandomInput : Prop :=
  (∀ (s t : State), step s = .next t ↔
    s.toCoreState.stepWith (Config.randomByte s.draws) = .next t.toCoreState ∧
    ((∃ x kk, s.nextWork = .run (.rnd x kk)) → t.draws = s.draws + 1) ∧
    ((∀ x kk, s.nextWork ≠ .run (.rnd x kk)) → t.draws = s.draws)) ∧
  (∀ (s : State) (f : Fault), step s = .fault f ↔
    s.toCoreState.stepWith (Config.randomByte s.draws) = .fault f) ∧
  (∀ (s : State) (r : Refusal), step s = .refused r ↔
    s.toCoreState.stepWith (Config.randomByte s.draws) = .refused r) ∧
  (∀ (a b : Byte) (s : CoreState), (∀ x kk, s.nextWork ≠ .run (.rnd x kk)) →
    s.stepWith a = s.stepWith b)

/-! ## Whole-machine rules -/

/-- PC after each command (R26; the rows of Fx0A and of the key wait are D15, the sum of Bnnn is D8). -/
def Obligations.ProgramCounterMovesByTheTable : Prop :=
  (∀ s t : State, step s = .next t →
    match s.nextWork with
    | .keyWait => t.pc = if s.latch = none then s.pc else s.pc + 2#16
    | .unknown _ => t.pc = s.pc + 2#16
    | .run (.seImm x kk) => t.pc = if s.getV x = kk then s.pc + 4#16 else s.pc + 2#16
    | .run (.sneImm x kk) => t.pc = if s.getV x ≠ kk then s.pc + 4#16 else s.pc + 2#16
    | .run (.seReg x y) => t.pc = if s.getV x = s.getV y then s.pc + 4#16 else s.pc + 2#16
    | .run (.sneReg x y) => t.pc = if s.getV x ≠ s.getV y then s.pc + 4#16 else s.pc + 2#16
    | .run (.skp x) => ∃ k : KeyIdx, (s.getV x).toNat = k.val ∧
        t.pc = if s.key.get k = true then s.pc + 4#16 else s.pc + 2#16
    | .run (.sknp x) => ∃ k : KeyIdx, (s.getV x).toNat = k.val ∧
        t.pc = if s.key.get k = false then s.pc + 4#16 else s.pc + 2#16
    | .run (.jp nnn) => t.pc.toNat = nnn.toNat
    | .run (.call nnn) => if s.sp.val < 16 then t.pc.toNat = nnn.toNat else t.pc = s.pc + 2#16
    | .run .ret => if s.sp.val = 0 then t.pc = s.pc + 2#16
        else ∃ j : SlotIdx, s.sp.val = j.val + 1 ∧ t.pc = s.stack.get j
    | .run (.jpV0 nnn) => t.pc.toNat = nnn.toNat + (s.getV 0).toNat
    | .run (.ldKey _) => t.pc = s.pc
    | .run _ => t.pc = s.pc + 2#16
    | .frozen _ | .fetchFault _ => False) ∧
  (∀ (c : Command) (s : CoreState), (∀ rnd, c ≠ .step rnd) → (afterCommand c s).pc = s.pc) ∧
  (∀ (rnd : Byte) (s t : CoreState), command (.step rnd) s = .faulted t → t.pc = s.pc)

/-- A step changes a timer only by Fx15 or Fx18, never a key, and a pixel only by 00E0 or Dxyn (R100). Of
the other commands only tick_timers changes a timer, only set_input and set_inputs change a key, and none
changes a pixel (R230, R34, R35; that load leaves them all is D21, R256, log entry 22). -/
def Obligations.StepsLeaveTimersKeysAndScreen : Prop :=
  (∀ s t : State, step s = .next t →
    (∀ k, t.key.get k = s.key.get k) ∧
    (t.dt ≠ s.dt → ∃ x, s.nextWork = .run (.ldDT x)) ∧
    (t.st ≠ s.st → ∃ x, s.nextWork = .run (.ldST x)) ∧
    (∀ px py, pixel t.fb px py ≠ pixel s.fb px py →
      s.nextWork = .run .cls ∨ ∃ x y n, s.nextWork = .run (.drw x y n))) ∧
  (∀ (c : Command) (s : CoreState), (∀ rnd, c ≠ .step rnd) →
    (afterCommand c s).fb = s.fb ∧
    (c ≠ .tickTimers → (afterCommand c s).dt = s.dt ∧ (afterCommand c s).st = s.st) ∧
    ((∀ k p, c ≠ .setInput k p) → (∀ levels, c ≠ .setInputs levels) →
      (afterCommand c s).key = s.key))

/-- Fx33 and Fx55 are the only instructions that write memory, and they write at I (R50, R57, C7). -/
def Obligations.OnlyTwoInstructionsWriteMemory : Prop :=
  ∀ (s t : State) (a : Nat), Memory.wf s.mem = true → step s = .next t →
    t.readByte a ≠ s.readByte a →
    (∃ x, s.nextWork = .run (.ldB x) ∧ s.idx.toNat ≤ a ∧ a ≤ s.idx.toNat + 2) ∨
    (∃ x, s.nextWork = .run (.store x) ∧ s.idx.toNat ≤ a ∧ a ≤ s.idx.toNat + x.val)

/-- What can change VF: the six flag writers, a register write with x = 0xF, and the end of a key wait
with WAITREG = 0xF (R23). -/
def Obligations.FlagRegisterWriters : Prop :=
  ∀ s t : State, step s = .next t → t.getV 0xF ≠ s.getV 0xF →
    match s.nextWork with
    | .keyWait => s.waitReg = 0xF
    | .run (.addReg _ _) | .run (.sub _ _) | .run (.shr _ _) | .run (.subn _ _)
    | .run (.shl _ _) | .run (.drw _ _ _) => True
    | .run (.ldImm x _) | .run (.addImm x _) | .run (.ldReg x _) | .run (.orReg x _)
    | .run (.andReg x _) | .run (.xorReg x _) | .run (.rnd x _) | .run (.ldFromDT x)
    | .run (.load x) => x = 0xF
    | _ => False

/-- SP moves only by 2nnn and 00EE, by exactly 1, and a slot changes only by a call that pushes PC
(R28, R29; a pop keeps its slot by D19). -/
def Obligations.StackMovesOnlyByCallAndReturn : Prop :=
  ∀ s t : State, step s = .next t →
    (t.sp ≠ s.sp →
      ((∃ nnn, s.nextWork = .run (.call nnn)) ∧ t.sp.val = s.sp.val + 1) ∨
      (s.nextWork = .run .ret ∧ s.sp.val = t.sp.val + 1)) ∧
    (∀ j : SlotIdx, t.stack.get j ≠ s.stack.get j →
      (∃ nnn, s.nextWork = .run (.call nnn)) ∧ s.sp.val = j.val ∧ t.stack.get j = s.pc + 2#16)

/-- I is written only by Annn, Fx1E and Fx29; WAIT is set only by Fx0A and cleared only when a key has
been latched (R27, R38). -/
def Obligations.IndexAndWaitHaveNamedWriters : Prop :=
  ∀ s t : State, step s = .next t →
    (t.idx ≠ s.idx → (∃ nnn, s.nextWork = .run (.ldI nnn)) ∨ (∃ x, s.nextWork = .run (.addI x)) ∨
      (∃ x, s.nextWork = .run (.ldF x))) ∧
    (s.wait = false → t.wait = true → s.nextWork = .run (.ldKey t.waitReg)) ∧
    (s.wait = true → t.wait = false → s.latch ≠ none)

/-- INVARIANT: every step keeps memory canonical and the latch inside a key wait. The canonical form is the
model's own choice (log entry 27), no rule of the spec. -/
def Obligations.StepKeepsInvariant : Prop :=
  ∀ s t : State, s.Inv → step s = .next t → t.Inv

/-- INVARIANT: so does every host command, whatever its inputs. The canonical form of memory is the model's
own choice (log entry 27), no rule of the spec. -/
def Obligations.EveryCommandKeepsInvariant : Prop :=
  ∀ (c : Command) (s : CoreState), s.Inv → (afterCommand c s).Inv

/-- INVARIANT: during a key wait PC is at the Fx0A that began it (R24), under steps and under every
command but a `load`, which may overwrite the instruction. -/
def Obligations.KeyWaitStaysAtItsInstruction : Prop :=
  (∀ s t : State, s.WaitsAtItsInstruction → step s = .next t → t.WaitsAtItsInstruction) ∧
  (∀ (c : Command) (s : CoreState), (∀ rom, c ≠ .load rom) → s.WaitsAtItsInstruction →
    (afterCommand c s).WaitsAtItsInstruction)

/-! ## Faults -/

/-- A fault discards the step and records what R214 lists: an address above 0xFFF or a key above 0xF,
the PC before the step, and the fetched opcode unless the fetch itself faulted (R214, R215; D5, D14). -/
def Obligations.FaultRecordIsPrecise : Prop :=
  ∀ (rnd : Byte) (s : CoreState) (f : Fault), s.stepWith rnd = .fault f →
    command (.step rnd) s = .faulted { s with fault := some f } ∧
    match f with
    | .addressFault a pc none => a > 0xFFF ∧ pc = s.pc ∧ s.fetchWord = .error a
    | .addressFault a pc (some op) => a > 0xFFF ∧ pc = s.pc ∧ s.fetchWord = .ok op
    | .keyIndexFault k pc op => k.toNat > 0xF ∧ pc = s.pc ∧ s.fetchWord = .ok op

/-- A faulted machine is quiescent: no command changes it, and the two reads still answer (R216, D23). -/
def Obligations.FaultedMachineIsQuiescent : Prop :=
  ∀ (s : CoreState) (f : Fault), s.fault = some f →
    (∀ n, step { toCoreState := s, draws := n } = .refused (.machineFaulted f)) ∧
    (∀ c : Command, c ≠ .framebufferSnapshot → c ≠ .isSoundActive →
      command c s = .refused (.machineFaulted f)) ∧
    command .framebufferSnapshot s = .done s (.pixels s.fb) ∧
    command .isSoundActive s = .done s (.sound (isSoundActive s)) ∧
    (∀ cs : List Command, runCommands cs s = s)

/-- A run that ends without a fault never had one (R41). -/
def Obligations.SafeRunIsSafeAllAlong : Prop :=
  ∀ (cs ds : List Command) (s : CoreState), SafeRun (cs ++ ds) s → SafeRun cs s ∧ s.fault = none

/-! ## Display -/

/-- 00E0 turns every pixel off and changes nothing else (R110). -/
def Obligations.ClearScreen : Prop :=
  ∀ s : CoreState, Completes 0x00E0#16 .cls s .none fun t =>
    (∀ px py, pixel t.fb px py = false) ∧ OnlyChanges (fun p => ∃ px py, p = .pixel px py) s t

/-- Dxyn inverts the pixels of the set bits, bit 7 leftmost (D17), wrapped modulo 64 and 32, and VF says
whether one of them was on (R111); n = 0 draws nothing (D18). -/
def Obligations.DrawInvertsSpritePixels : Prop :=
  ∀ (x y : RegIdx) (n : Fin 16) (s : CoreState),
    n.val = 0 ∨ s.idx.toNat + n.val ≤ 0x1000 →
    Completes (opXYN 0xD#4 x y (BitVec.ofFin n)) (.drw x y n) s .none fun t =>
      let touched := fun (px : Column) (py : Row) => ∃ r c : Nat, r < n.val ∧ c < 8 ∧
        (s.readByte (s.idx.toNat + r)).getLsbD (7 - c) = true ∧
        px.val = ((s.getV x).toNat + c) % 64 ∧ py.val = ((s.getV y).toNat + r) % 32
      (∀ px py, touched px py → pixel t.fb px py = !pixel s.fb px py) ∧
      (∀ px py, ¬ touched px py → pixel t.fb px py = pixel s.fb px py) ∧
      ((∃ px py, touched px py ∧ pixel s.fb px py = true) → t.getV 0xF = 1#8) ∧
      ((¬ ∃ px py, touched px py ∧ pixel s.fb px py = true) → t.getV 0xF = 0#8) ∧
      OnlyChanges (fun p => p = .v 0xF ∨ ∃ px py, p = .pixel px py) s t

/-- Drawing one sprite twice at one place restores the screen, and each VF is recomputed: the second one
says whether the first draw lit a pixel (R112, R111). With x or y = 0xF the first draw's VF moves the second;
DrawInvertsSpritePixels covers each such draw. -/
def Obligations.DrawTwiceRestoresTheScreen : Prop :=
  ∀ (x y : RegIdx) (n : Fin 16) (s t : State), x ≠ 0xF → y ≠ 0xF →
    exec (.drw x y n) s = .next t →
    ∃ u, exec (.drw x y n) t = .next u ∧
      (∀ px py, pixel u.fb px py = pixel s.fb px py) ∧
      ((∃ px py, pixel s.fb px py = false ∧ pixel t.fb px py = true) → u.getV 0xF = 1#8) ∧
      ((¬ ∃ px py, pixel s.fb px py = false ∧ pixel t.fb px py = true) → u.getV 0xF = 0#8)

/-- EXPECTED TO FAIL. R112's sentence "After the second draw, VF = 1 if and only if the sprite has at least
one set bit", which R112 derives from R111, taken over every screen: it does not follow where the first
draw only cleared pixels (log entry 28). -/
def Obligations.SecondDrawCollidesForEverySprite : Prop :=
  ∀ (x y : RegIdx) (n : Fin 16) (s t u : State), x ≠ 0xF → y ≠ 0xF →
    exec (.drw x y n) s = .next t → exec (.drw x y n) t = .next u →
    (u.getV 0xF = 1#8 ↔ ∃ r, r < n.val ∧ s.readByte (s.idx.toNat + r) ≠ 0#8)

/-- Coordinates wrap: starting values equal modulo 64 and 32 draw the same pixels (R112). -/
def Obligations.DrawDependsOnWrappedCoordinates : Prop :=
  ∀ (x y x' y' : RegIdx) (n : Fin 16) (s t : State),
    (s.getV x).toNat % 64 = (s.getV x').toNat % 64 → (s.getV y).toNat % 32 = (s.getV y').toNat % 32 →
    exec (.drw x y n) s = .next t → exec (.drw x' y' n) s = .next t

/-! ## Control transfer -/

/-- 0nnn does nothing and reports nothing (R96; no diagnostic by D12). -/
def Obligations.SysDoesNothing : Prop :=
  ∀ (nnn : BitVec 12) (s : CoreState), nnn ≠ 0x0E0#12 → nnn ≠ 0x0EE#12 →
    Completes (opNNN 0x0#4 nnn) (.sys nnn) s .none fun t => OnlyChanges (fun _ => False) s t

/-- 00EE pops the top slot into PC, or reports StackUnderflow and does nothing (R120; that
the popped slot stays is D19). -/
def Obligations.ReturnPopsOrUnderflows : Prop :=
  ∀ s : CoreState,
    (s.sp.val = 0 → Completes 0x00EE#16 .ret s .stackUnderflow fun t =>
      OnlyChanges (fun _ => False) s t) ∧
    (∀ j : SlotIdx, s.sp.val = j.val + 1 → Completes 0x00EE#16 .ret s .none fun t =>
      t.pc = s.stack.get j ∧ t.sp.val = j.val ∧ OnlyChanges (fun p => p = .pc ∨ p = .sp) s t)

/-- 1nnn sets PC to nnn, whatever its parity (R121). -/
def Obligations.JumpSetsPC : Prop :=
  ∀ (nnn : BitVec 12) (s : CoreState), Completes (opNNN 0x1#4 nnn) (.jp nnn) s .none fun t =>
    t.pc.toNat = nnn.toNat ∧ OnlyChanges (fun p => p = .pc) s t

/-- 2nnn pushes PC and jumps, or reports StackOverflow and does nothing (R122). -/
def Obligations.CallPushesOrOverflows : Prop :=
  ∀ (nnn : BitVec 12) (s : CoreState),
    (s.sp.val = 16 → Completes (opNNN 0x2#4 nnn) (.call nnn) s .stackOverflow fun t =>
      OnlyChanges (fun _ => False) s t) ∧
    (∀ j : SlotIdx, s.sp.val = j.val → Completes (opNNN 0x2#4 nnn) (.call nnn) s .none fun t =>
      t.stack.get j = s.pc ∧ t.sp.val = j.val + 1 ∧ t.pc.toNat = nnn.toNat ∧
      OnlyChanges (fun p => p = .pc ∨ p = .sp ∨ p = .slot j) s t)

/-- A return after a call comes back behind the call, whatever happened to the rest of the state in
between (R120, R122). -/
def Obligations.ReturnAfterCallComesBack : Prop :=
  ∀ (nnn : BitVec 12) (s t u : State), s.sp.val < 16 → exec (.call nnn) s = .next t →
    u.stack = t.stack → u.sp = t.sp → ∃ w, exec .ret u = .next w ∧ w.pc = s.pc ∧ w.sp = s.sp

/-- The four register and immediate skips (R123, R124, R125, R126). -/
def Obligations.SkipsTestTheirCondition : Prop :=
  (∀ (x : RegIdx) (kk : BitVec 8) (s : CoreState),
    Completes (opXKK 0x3#4 x kk) (.seImm x kk) s .none fun t =>
      t.pc = (if s.getV x = kk then s.pc + 2#16 else s.pc) ∧ OnlyChanges (fun p => p = .pc) s t) ∧
  (∀ (x : RegIdx) (kk : BitVec 8) (s : CoreState),
    Completes (opXKK 0x4#4 x kk) (.sneImm x kk) s .none fun t =>
      t.pc = (if s.getV x = kk then s.pc else s.pc + 2#16) ∧ OnlyChanges (fun p => p = .pc) s t) ∧
  (∀ (x y : RegIdx) (s : CoreState),
    Completes (opXYN 0x5#4 x y 0x0#4) (.seReg x y) s .none fun t =>
      t.pc = (if s.getV x = s.getV y then s.pc + 2#16 else s.pc) ∧
      OnlyChanges (fun p => p = .pc) s t) ∧
  (∀ (x y : RegIdx) (s : CoreState),
    Completes (opXYN 0x9#4 x y 0x0#4) (.sneReg x y) s .none fun t =>
      t.pc = (if s.getV x = s.getV y then s.pc else s.pc + 2#16) ∧
      OnlyChanges (fun p => p = .pc) s t)

/-- Bnnn jumps to nnn + V0, the sum not truncated to 12 bits (R127; D8). -/
def Obligations.ComputedJumpAddsV0 : Prop :=
  ∀ (nnn : BitVec 12) (s : CoreState), Completes (opNNN 0xB#4 nnn) (.jpV0 nnn) s .none fun t =>
    t.pc.toNat = nnn.toNat + (s.getV 0).toNat ∧ OnlyChanges (fun p => p = .pc) s t

/-! ## Immediate -/

/-- 6xkk loads kk, 7xkk adds it modulo 256 with no flag, Annn loads I (R140, R141, R142). -/
def Obligations.ImmediatesWriteTheirRegister : Prop :=
  (∀ (x : RegIdx) (kk : BitVec 8) (s : CoreState),
    Completes (opXKK 0x6#4 x kk) (.ldImm x kk) s .none fun t =>
      t.getV x = kk ∧ OnlyChanges (fun p => p = .v x) s t) ∧
  (∀ (x : RegIdx) (kk : BitVec 8) (s : CoreState),
    Completes (opXKK 0x7#4 x kk) (.addImm x kk) s .none fun t =>
      (t.getV x).toNat = ((s.getV x).toNat + kk.toNat) % 256 ∧
      OnlyChanges (fun p => p = .v x) s t) ∧
  (∀ (nnn : BitVec 12) (s : CoreState),
    Completes (opNNN 0xA#4 nnn) (.ldI nnn) s .none fun t =>
      t.idx.toNat = nnn.toNat ∧ OnlyChanges (fun p => p = .idx) s t)

/-- Cxkk writes a random byte AND kk and changes nothing else, for every byte that is given (R143; the free
draw is D22). In the interface's step the byte is the next one of the random source (log entry 1). -/
def Obligations.RandomIsMaskedByImmediate : Prop :=
  ∀ (x : RegIdx) (kk : BitVec 8) (s : CoreState),
    decodeWord (opXKK 0xC#4 x kk) = .ok (.rnd x kk) ∧ reported (.rnd x kk) s = .none ∧
    (∀ r : Byte, ∃ t, s.executeWith r (.rnd x kk) = .next t ∧ t.getV x = r &&& kk ∧
      OnlyChanges (fun p => p = .v x) s t) ∧
    (∀ n : Nat, ∃ t, exec (.rnd x kk) { toCoreState := s, draws := n } =
        .next { toCoreState := t, draws := n + 1 } ∧
      t.getV x = Config.randomByte n &&& kk ∧ OnlyChanges (fun p => p = .v x) s t)

/-! ## ALU -/

/-- 8xy0-8xy3 write Vx and nothing else (R151-R154; VF is not reset by D16). -/
def Obligations.MoveAndLogicWriteOnlyVx : Prop :=
  ∀ (x y : RegIdx) (s : CoreState),
    (Completes (opXYN 0x8#4 x y 0x0#4) (.ldReg x y) s .none fun t =>
      t.getV x = s.getV y ∧ OnlyChanges (fun p => p = .v x) s t) ∧
    (Completes (opXYN 0x8#4 x y 0x1#4) (.orReg x y) s .none fun t =>
      t.getV x = s.getV x ||| s.getV y ∧ OnlyChanges (fun p => p = .v x) s t) ∧
    (Completes (opXYN 0x8#4 x y 0x2#4) (.andReg x y) s .none fun t =>
      t.getV x = s.getV x &&& s.getV y ∧ OnlyChanges (fun p => p = .v x) s t) ∧
    (Completes (opXYN 0x8#4 x y 0x3#4) (.xorReg x y) s .none fun t =>
      t.getV x = s.getV x ^^^ s.getV y ∧ OnlyChanges (fun p => p = .v x) s t)

/-- 8xy4, 8xy5 and 8xy7 wrap modulo 256 and set VF to carry or NOT-borrow; with x = 0xF the result
stays in VF (R155, R156, R158, R160; D9, D10). -/
def Obligations.AddAndSubtractWrapAndFlag : Prop :=
  ∀ (x y : RegIdx) (s : CoreState),
    (Completes (opXYN 0x8#4 x y 0x4#4) (.addReg x y) s .none fun t =>
      (t.getV x).toNat = ((s.getV x).toNat + (s.getV y).toNat) % 256 ∧
      (x ≠ 0xF → t.getV 0xF = if (s.getV x).toNat + (s.getV y).toNat > 255 then 1#8 else 0#8) ∧
      OnlyChanges (fun p => p = .v x ∨ p = .v 0xF) s t) ∧
    (Completes (opXYN 0x8#4 x y 0x5#4) (.sub x y) s .none fun t =>
      (t.getV x).toNat = (256 + (s.getV x).toNat - (s.getV y).toNat) % 256 ∧
      (x ≠ 0xF → t.getV 0xF = if (s.getV x).toNat ≥ (s.getV y).toNat then 1#8 else 0#8) ∧
      OnlyChanges (fun p => p = .v x ∨ p = .v 0xF) s t) ∧
    (Completes (opXYN 0x8#4 x y 0x7#4) (.subn x y) s .none fun t =>
      (t.getV x).toNat = (256 + (s.getV y).toNat - (s.getV x).toNat) % 256 ∧
      (x ≠ 0xF → t.getV 0xF = if (s.getV y).toNat ≥ (s.getV x).toNat then 1#8 else 0#8) ∧
      OnlyChanges (fun p => p = .v x ∨ p = .v 0xF) s t)

/-- 8xy6 and 8xyE shift Vx by one, whatever y is, and VF is the bit shifted out unless x = 0xF
(R157, R159, R160; D10, and D30 for the source Vx). -/
def Obligations.ShiftsMoveOneBitIntoVF : Prop :=
  ∀ (x y : RegIdx) (s : CoreState),
    (Completes (opXYN 0x8#4 x y 0x6#4) (.shr x y) s .none fun t =>
      (t.getV x).toNat = (s.getV x).toNat / 2 ∧
      (x ≠ 0xF → (t.getV 0xF).toNat = (s.getV x).toNat % 2) ∧
      OnlyChanges (fun p => p = .v x ∨ p = .v 0xF) s t) ∧
    (Completes (opXYN 0x8#4 x y 0xE#4) (.shl x y) s .none fun t =>
      (t.getV x).toNat = (2 * (s.getV x).toNat) % 256 ∧
      (x ≠ 0xF → (t.getV 0xF).toNat = (s.getV x).toNat / 128) ∧
      OnlyChanges (fun p => p = .v x ∨ p = .v 0xF) s t)

/-! ## Keypad -/

/-- Ex9E and ExA1 skip on the level of the key Vx, and fault when Vx names no key (R170, R171, R175;
the fault is D14). -/
def Obligations.KeySkipsReadTheKeyLevel : Prop :=
  ∀ (x : RegIdx) (s : CoreState),
    (∀ k : KeyIdx, (s.getV x).toNat = k.val →
      (Completes (opXKK 0xE#4 x 0x9E#8) (.skp x) s .none fun t =>
        t.pc = (if s.key.get k = true then s.pc + 2#16 else s.pc) ∧
        OnlyChanges (fun p => p = .pc) s t) ∧
      (Completes (opXKK 0xE#4 x 0xA1#8) (.sknp x) s .none fun t =>
        t.pc = (if s.key.get k = true then s.pc else s.pc + 2#16) ∧
        OnlyChanges (fun p => p = .pc) s t)) ∧
    ((s.getV x).toNat > 0xF → ∀ n : Nat,
      exec (.skp x) { toCoreState := s, draws := n } =
        .fault (.keyIndexFault (s.getV x) (s.pc - 2#16) (opXKK 0xE#4 x 0x9E#8)) ∧
      exec (.sknp x) { toCoreState := s, draws := n } =
        .fault (.keyIndexFault (s.getV x) (s.pc - 2#16) (opXKK 0xE#4 x 0xA1#8)))

/-- Fx0A begins a key wait and puts PC back on itself (R172; the mechanism is D15). -/
def Obligations.KeyLoadBeginsTheWait : Prop :=
  ∀ (x : RegIdx) (s : CoreState),
    Completes (opXKK 0xF#4 x 0x0A#8) (.ldKey x) s .none fun t =>
      t.wait = true ∧ t.waitReg = x ∧ t.latch = none ∧ t.pc = s.pc - 2#16 ∧
      OnlyChanges (fun p => p = .wait ∨ p = .waitReg ∨ p = .latch ∨ p = .pc) s t

/-- set_input latches the first released-to-pressed report of a key wait and then sets the level
(R174, R233; D15). -/
def Obligations.SetInputLatchesTheFirstPress : Prop :=
  ∀ (k : KeyIdx) (pressed : Bool) (s : CoreState), s.fault = none →
    ∃ t, command (.setInput k pressed) s = .done t .none ∧ t.key.get k = pressed ∧
      (s.wait = true → s.latch = none → pressed = true → s.key.get k = false → t.latch = some k) ∧
      (¬(s.wait = true ∧ s.latch = none ∧ pressed = true ∧ s.key.get k = false) →
        t.latch = s.latch) ∧
      OnlyChanges (fun p => p = .key k ∨ p = .latch) s t

/-- set_inputs writes every key, and during a key wait with nothing latched the lowest newly pressed key
is latched (R234; D35). -/
def Obligations.SetInputsLatchesTheLowestPress : Prop :=
  ∀ (levels : Vector Bool 16) (s : CoreState), s.fault = none →
    ∃ t, command (.setInputs levels) s = .done t .none ∧ (∀ k, t.key.get k = levels.get k) ∧
      (∀ k : KeyIdx, s.wait = true → s.latch = none → levels.get k = true → s.key.get k = false →
        (∀ j : KeyIdx, j < k → ¬(levels.get j = true ∧ s.key.get j = false)) → t.latch = some k) ∧
      ((s.wait = false ∨ s.latch ≠ none ∨ ∀ j, ¬(levels.get j = true ∧ s.key.get j = false)) →
        t.latch = s.latch) ∧
      OnlyChanges (fun p => p = .latch ∨ ∃ k, p = .key k) s t

/-! ## Timers -/

/-- Fx07, Fx15 and Fx18 move a byte between Vx and a timer (R180, R181, R182). -/
def Obligations.TimerAccessMovesOneByte : Prop :=
  ∀ (x : RegIdx) (s : CoreState),
    (Completes (opXKK 0xF#4 x 0x07#8) (.ldFromDT x) s .none fun t =>
      t.getV x = s.dt ∧ OnlyChanges (fun p => p = .v x) s t) ∧
    (Completes (opXKK 0xF#4 x 0x15#8) (.ldDT x) s .none fun t =>
      t.dt = s.getV x ∧ OnlyChanges (fun p => p = .dt) s t) ∧
    (Completes (opXKK 0xF#4 x 0x18#8) (.ldST x) s .none fun t =>
      t.st = s.getV x ∧ OnlyChanges (fun p => p = .st) s t)

/-- tick_timers counts each nonzero timer down by one and changes nothing else (R222). -/
def Obligations.TickCountsDownToZero : Prop :=
  ∀ s : CoreState, s.fault = none →
    ∃ t, command .tickTimers s = .done t .none ∧
      t.dt.toNat = s.dt.toNat - 1 ∧ t.st.toNat = s.st.toNat - 1 ∧
      OnlyChanges (fun p => p = .dt ∨ p = .st) s t

/-- The sound signal is ST > 0, and reading it changes nothing (R224). -/
def Obligations.SoundIsActiveWhileTimerRuns : Prop :=
  ∀ s : CoreState, ∃ b, command .isSoundActive s = .done s (.sound b) ∧ (b = true ↔ s.st.toNat > 0)

/-! ## Index and memory -/

/-- Fx1E adds Vx to I modulo 2^16 with no flag (R190). -/
def Obligations.AddIndexWraps : Prop :=
  ∀ (x : RegIdx) (s : CoreState), Completes (opXKK 0xF#4 x 0x1E#8) (.addI x) s .none fun t =>
    t.idx.toNat = (s.idx.toNat + (s.getV x).toNat) % 65536 ∧ OnlyChanges (fun p => p = .idx) s t

/-- Fx29 points I at 0x050 + 5*Vx, the whole byte taken (R191; D13). -/
def Obligations.FontAddressOfDigit : Prop :=
  ∀ (x : RegIdx) (s : CoreState), Completes (opXKK 0xF#4 x 0x29#8) (.ldF x) s .none fun t =>
    t.idx.toNat = 0x050 + 5 * (s.getV x).toNat ∧ OnlyChanges (fun p => p = .idx) s t

/-- Fx33 stores the three decimal digits of Vx at I, I+1, I+2, and no other byte changes (R192). -/
def Obligations.DecimalDigitsAreStored : Prop :=
  ∀ (x : RegIdx) (s : CoreState), Memory.wf s.mem = true → s.idx.toNat + 2 ≤ 0xFFF →
    Completes (opXKK 0xF#4 x 0x33#8) (.ldB x) s .none fun t =>
      (t.readByte s.idx.toNat).toNat = (s.getV x).toNat / 100 ∧
      (t.readByte (s.idx.toNat + 1)).toNat = (s.getV x).toNat / 10 % 10 ∧
      (t.readByte (s.idx.toNat + 2)).toNat = (s.getV x).toNat % 10 ∧
      OnlyChanges (fun p => ∃ a, p = .byte a ∧ s.idx.toNat ≤ a ∧ a ≤ s.idx.toNat + 2) s t

/-- Fx55 stores V0..Vx from I, and no other byte changes; I stays (R193; D16). -/
def Obligations.RegistersAreStored : Prop :=
  ∀ (x : RegIdx) (s : CoreState), Memory.wf s.mem = true → s.idx.toNat + x.val ≤ 0xFFF →
    Completes (opXKK 0xF#4 x 0x55#8) (.store x) s .none fun t =>
      (∀ i : RegIdx, i ≤ x → t.readByte (s.idx.toNat + i.val) = s.getV i) ∧
      OnlyChanges (fun p => ∃ a, p = .byte a ∧ s.idx.toNat ≤ a ∧ a ≤ s.idx.toNat + x.val) s t

/-- Fx65 loads V0..Vx from I, and the registers above x stay; I stays (R194; D16). -/
def Obligations.RegistersAreLoaded : Prop :=
  ∀ (x : RegIdx) (s : CoreState), s.idx.toNat + x.val ≤ 0xFFF →
    Completes (opXKK 0xF#4 x 0x65#8) (.load x) s .none fun t =>
      (∀ i : RegIdx, i ≤ x → t.getV i = s.readByte (s.idx.toNat + i.val)) ∧
      OnlyChanges (fun p => ∃ i, p = .v i ∧ i ≤ x) s t

/-- An access that reaches past 0xFFF faults with the lowest address above it, max(I, 0x1000), before
any write (R111, R192, R193, R194; the fault is D5, the exact addresses D6). -/
def Obligations.AccessPastMemoryFaults : Prop :=
  ∀ (x y : RegIdx) (n : Fin 16) (s : State),
    (n.val ≠ 0 → s.idx.toNat + n.val > 0x1000 → exec (.drw x y n) s =
      .fault (.addressFault (max s.idx.toNat 0x1000) (s.pc - 2#16)
        (some (opXYN 0xD#4 x y (BitVec.ofFin n))))) ∧
    (s.idx.toNat + 2 > 0xFFF → exec (.ldB x) s =
      .fault (.addressFault (max s.idx.toNat 0x1000) (s.pc - 2#16) (some (opXKK 0xF#4 x 0x33#8)))) ∧
    (s.idx.toNat + x.val > 0xFFF → exec (.store x) s =
      .fault (.addressFault (max s.idx.toNat 0x1000) (s.pc - 2#16) (some (opXKK 0xF#4 x 0x55#8)))) ∧
    (s.idx.toNat + x.val > 0xFFF → exec (.load x) s =
      .fault (.addressFault (max s.idx.toNat 0x1000) (s.pc - 2#16) (some (opXKK 0xF#4 x 0x65#8))))

/-- Two registers stored over code are fetched as the next opcode there (R62, R259; D25). -/
def Obligations.StoredBytesAreFetched : Prop :=
  ∀ (x i j : RegIdx) (s t : State), Memory.wf s.mem = true → i.val + 1 = j.val → j ≤ x →
    exec (.store x) s = .next t →
    (t.setPC (s.idx + BitVec.ofNat 16 i.val)).fetchWord = .ok (wordOfBytes (s.getV i) (s.getV j))

/-- load places the ROM at 0x200 and changes nothing else, or refuses one longer than 3584 bytes and
changes nothing (R256; D21). -/
def Obligations.LoadPlacesTheRom : Prop :=
  ∀ (rom : List Byte) (s : CoreState), s.fault = none → Memory.wf s.mem = true →
    (rom.length > 3584 → command (.load rom) s = .done s (.diag .romTooLarge)) ∧
    (rom.length ≤ 3584 → ∃ t, command (.load rom) s = .done t (.diag .none) ∧
      (∀ i, i < rom.length → some (t.readByte (0x200 + i)) = rom[i]?) ∧
      OnlyChanges (fun p => ∃ a, p = .byte a ∧ 0x200 ≤ a ∧ a < 0x200 + rom.length) s t)

/-! ## The CORE's state is closed -/

/-- The interface's machine does nothing that the CORE does not do on its own state: a run of it is a run of
step(RND) commands on the CORE's state, for some random bytes, that ends in the same CORE state or the same
fault; and a step is a function of the CORE's state and the byte drawn, which Cxkk alone reads (R20, R37,
R215; the random source beside the CORE's state is log entry 1). -/
def Obligations.InterfaceRunsAreRunsOfTheCoreState : Prop :=
  (∀ (k : Nat) (s t : State), Sys2Proof.core.run k s = .next t →
    ∃ bytes : List Byte, bytes.length = k ∧
      runCommands (bytes.map Command.step) s.toCoreState = t.toCoreState) ∧
  (∀ (k : Nat) (s : State) (f : Fault), Sys2Proof.core.run k s = .fault f →
    ∃ bytes : List Byte, bytes.length ≤ k ∧
      (runCommands (bytes.map Command.step) s.toCoreState).fault = some f) ∧
  (∀ s s' : State, s.toCoreState = s'.toCoreState →
    ((∃ x kk, s.nextWork = .run (.rnd x kk)) → Config.randomByte s.draws = Config.randomByte s'.draws) →
    coreOutcome (step s) = coreOutcome (step s'))
end

