-- ==== Sys2Proof/Laws/Decode.lean ====
section
/-! SUPPORT. The bits of an assembled opcode by format (spec 30_encoding.md R73), and from them each
field of it; every opcode is assembled from its own fields. The proofs about decoding cite these and
unfold no slice. -/

namespace Sys2Proof.Laws

/-! ## Bits by format -/

theorem getLsbD_opNNN (f : BitVec 4) (nnn : BitVec 12) (i : Nat) :
    (opNNN f nnn).getLsbD i = if i < 12 then nnn.getLsbD i else f.getLsbD (i - 12) :=
  BitVec.getLsbD_append

theorem getLsbD_opXKK (f : BitVec 4) (x : RegIdx) (kk : BitVec 8) (i : Nat) :
    (opXKK f x kk).getLsbD i =
      if i < 8 then kk.getLsbD i
      else if i < 12 then (regBits x).getLsbD (i - 8) else f.getLsbD (i - 12) := by
  refine (BitVec.getLsbD_append (x := f ++ regBits x) (y := kk) (i := i)).trans ?_
  simp only [BitVec.getLsbD_append, Nat.sub_sub]
  grind

theorem getLsbD_opXYN (f : BitVec 4) (x y : RegIdx) (n : BitVec 4) (i : Nat) :
    (opXYN f x y n).getLsbD i =
      if i < 4 then n.getLsbD i
      else if i < 8 then (regBits y).getLsbD (i - 4)
      else if i < 12 then (regBits x).getLsbD (i - 8) else f.getLsbD (i - 12) := by
  refine (BitVec.getLsbD_append (x := f ++ regBits x ++ regBits y) (y := n) (i := i)).trans ?_
  simp only [BitVec.getLsbD_append, Nat.sub_sub]
  grind

/-! ## Fields of an assembled opcode -/

@[simp] theorem fieldF_opNNN (f : BitVec 4) (nnn : BitVec 12) : fieldF (opNNN f nnn) = f :=
  BitVec.eq_of_getLsbD_eq fun i hi => by simp [fieldF, getLsbD_opNNN, hi]

@[simp] theorem fieldNNN_opNNN (f : BitVec 4) (nnn : BitVec 12) : fieldNNN (opNNN f nnn) = nnn :=
  BitVec.eq_of_getLsbD_eq fun i hi => by simp [fieldNNN, getLsbD_opNNN, hi]

@[simp] theorem fieldF_opXKK (f : BitVec 4) (x : RegIdx) (kk : BitVec 8) :
    fieldF (opXKK f x kk) = f :=
  BitVec.eq_of_getLsbD_eq fun i hi => by simp [fieldF, getLsbD_opXKK, hi]; omega

@[simp] theorem fieldX_opXKK (f : BitVec 4) (x : RegIdx) (kk : BitVec 8) :
    fieldX (opXKK f x kk) = x := by
  have h : (opXKK f x kk).extractLsb' 8 4 = regBits x :=
    BitVec.eq_of_getLsbD_eq fun i hi => by simp [getLsbD_opXKK, hi]; omega
  rw [fieldX, h]; rfl

@[simp] theorem fieldKK_opXKK (f : BitVec 4) (x : RegIdx) (kk : BitVec 8) :
    fieldKK (opXKK f x kk) = kk :=
  BitVec.eq_of_getLsbD_eq fun i hi => by simp [fieldKK, getLsbD_opXKK, hi]

@[simp] theorem fieldF_opXYN (f : BitVec 4) (x y : RegIdx) (n : BitVec 4) :
    fieldF (opXYN f x y n) = f :=
  BitVec.eq_of_getLsbD_eq fun i hi => by
    rw [fieldF, BitVec.getLsbD_extractLsb', getLsbD_opXYN]; grind

@[simp] theorem fieldX_opXYN (f : BitVec 4) (x y : RegIdx) (n : BitVec 4) :
    fieldX (opXYN f x y n) = x := by
  have h : (opXYN f x y n).extractLsb' 8 4 = regBits x :=
    BitVec.eq_of_getLsbD_eq fun i hi => by
      rw [BitVec.getLsbD_extractLsb', getLsbD_opXYN]; grind
  rw [fieldX, h]; rfl

@[simp] theorem fieldY_opXYN (f : BitVec 4) (x y : RegIdx) (n : BitVec 4) :
    fieldY (opXYN f x y n) = y := by
  have h : (opXYN f x y n).extractLsb' 4 4 = regBits y :=
    BitVec.eq_of_getLsbD_eq fun i hi => by
      rw [BitVec.getLsbD_extractLsb', getLsbD_opXYN]; grind
  rw [fieldY, h]; rfl

@[simp] theorem fieldN_opXYN (f : BitVec 4) (x y : RegIdx) (n : BitVec 4) :
    fieldN (opXYN f x y n) = n :=
  BitVec.eq_of_getLsbD_eq fun i hi => by
    rw [fieldN, BitVec.getLsbD_extractLsb', getLsbD_opXYN]; grind

/-! ## Every opcode is assembled from its fields -/

theorem opNNN_fields (op : Word) : opNNN (fieldF op) (fieldNNN op) = op :=
  BitVec.eq_of_getLsbD_eq fun i hi => by
    rw [getLsbD_opNNN, fieldF, fieldNNN, BitVec.getLsbD_extractLsb', BitVec.getLsbD_extractLsb']
    grind

theorem opXKK_fields (op : Word) : opXKK (fieldF op) (fieldX op) (fieldKK op) = op :=
  BitVec.eq_of_getLsbD_eq fun i hi => by
    rw [getLsbD_opXKK, fieldX, show regBits (regOfBits (op.extractLsb' 8 4)) = op.extractLsb' 8 4 from rfl,
      fieldF, fieldKK, BitVec.getLsbD_extractLsb', BitVec.getLsbD_extractLsb', BitVec.getLsbD_extractLsb']
    grind

theorem opXYN_fields (op : Word) : opXYN (fieldF op) (fieldX op) (fieldY op) (fieldN op) = op :=
  BitVec.eq_of_getLsbD_eq fun i hi => by
    rw [getLsbD_opXYN, fieldX, show regBits (regOfBits (op.extractLsb' 8 4)) = op.extractLsb' 8 4 from rfl,
      fieldY, show regBits (regOfBits (op.extractLsb' 4 4)) = op.extractLsb' 4 4 from rfl,
      fieldF, fieldN, BitVec.getLsbD_extractLsb', BitVec.getLsbD_extractLsb',
      BitVec.getLsbD_extractLsb', BitVec.getLsbD_extractLsb']
    grind

/-- The one value a nibble has left when it is none of 0x0..0xE: the last family of R74. -/
theorem nibble_eq_F {b : BitVec 4} (h : ∀ k, k < 15 → b ≠ BitVec.ofNat 4 k) : b = 0xF#4 := by
  by_contra hb
  have hlt : b.toNat < 15 := by
    have := b.isLt
    rcases Nat.lt_or_ge b.toNat 15 with h1 | h1
    · exact h1
    · exact absurd (BitVec.eq_of_toNat_eq (by simp; omega)) hb
  exact h b.toNat hlt (by simp)

/-! ## The two bytes of an opcode -/

theorem wordOfBytes_bytes (op : Word) : wordOfBytes (highByte op) (lowByte op) = op :=
  BitVec.eq_of_getLsbD_eq fun i hi => by
    refine (BitVec.getLsbD_append (x := highByte op) (y := lowByte op) (i := i)).trans ?_
    rw [highByte, lowByte, BitVec.getLsbD_extractLsb', BitVec.getLsbD_extractLsb']
    grind

theorem highByte_wordOfBytes (hi lo : Byte) : highByte (wordOfBytes hi lo) = hi :=
  BitVec.eq_of_getLsbD_eq fun i hi' => by
    rw [highByte, BitVec.getLsbD_extractLsb']
    refine (congrArg (_ && ·) (BitVec.getLsbD_append (x := hi) (y := lo) (i := 8 + i))).trans ?_
    grind

theorem lowByte_wordOfBytes (hi lo : Byte) : lowByte (wordOfBytes hi lo) = lo :=
  BitVec.eq_of_getLsbD_eq fun i hi' => by
    rw [lowByte, BitVec.getLsbD_extractLsb']
    refine (congrArg (_ && ·) (BitVec.getLsbD_append (x := hi) (y := lo) (i := 0 + i))).trans ?_
    grind

end Sys2Proof.Laws
end

