-- ==== Sys2Proof/Laws/Memory.lean ====
section
/-! SUPPORT. The laws of memory: a read after a write, the canonical form kept by every memory
operation, runs of bytes, and the one range check. -/

namespace Sys2Proof.Laws

open Sys2Proof.Machine

/-! ## Canonical form -/

theorem wfFrom_cons {low k : Nat} {b : Byte} {rest : Memory} :
    Memory.wfFrom low ((k, b) :: rest) = true ↔
      low ≤ k ∧ k < Config.memSize ∧ b ≠ resetByte k ∧ Memory.wfFrom (k + 1) rest = true := by
  simp [Memory.wfFrom, and_assoc]

theorem wfFrom_weaken {m : Memory} {low low' : Nat} (h : Memory.wfFrom low m = true)
    (hl : low' ≤ low) : Memory.wfFrom low' m = true := by
  cases m with
  | nil => rfl
  | cons c rest =>
    obtain ⟨h1, h2⟩ := wfFrom_cons.1 h
    exact wfFrom_cons.2 ⟨hl.trans h1, h2⟩

/-- Below the first cell a canonical memory reads as at reset. -/
theorem read_below {m : Memory} {low a : Nat} (h : Memory.wfFrom low m = true) (ha : a < low) :
    Memory.read m a = resetByte a := by
  induction m generalizing low with
  | nil => rfl
  | cons c rest ih =>
    obtain ⟨h1, -, -, h4⟩ := wfFrom_cons.1 h
    rw [Memory.read, if_neg (by omega)]
    exact ih h4 (by omega)

theorem read_put {rest : Memory} {a k : Nat} {b : Byte}
    (h : Memory.wfFrom (a + 1) rest = true) :
    Memory.read (Memory.put a b rest) k = if k = a then b else Memory.read rest k := by
  rw [Memory.put]
  split
  · next hb =>
    split
    · next hk => rw [hk, read_below h (by omega), hb]
    · rfl
  · rw [Memory.read]; simp only [eq_comm]

theorem put_wf {rest : Memory} {low a : Nat} {b : Byte} (h : Memory.wfFrom (a + 1) rest = true)
    (hl : low ≤ a) (ha : a < Config.memSize) : Memory.wfFrom low (Memory.put a b rest) = true := by
  rw [Memory.put]
  split
  · exact wfFrom_weaken h (by omega)
  · next hb => exact wfFrom_cons.2 ⟨hl, ha, hb, h⟩

theorem write_wfFrom {m : Memory} {low a : Nat} {b : Byte} (h : Memory.wfFrom low m = true)
    (hl : low ≤ a) (ha : a < Config.memSize) : Memory.wfFrom low (Memory.write m a b) = true := by
  induction m generalizing low with
  | nil => exact put_wf rfl hl ha
  | cons c rest ih =>
    obtain ⟨h1, h2, h3, h4⟩ := wfFrom_cons.1 h
    rw [Memory.write]
    split
    · exact put_wf (wfFrom_cons.2 ⟨by omega, h2, h3, h4⟩) hl ha
    · split
      · next hk => subst hk; exact put_wf h4 hl ha
      · exact wfFrom_cons.2 ⟨h1, h2, h3, ih h4 (by omega)⟩

/-- A write inside memory keeps the canonical form. -/
theorem write_wf {m : Memory} {a : Nat} {b : Byte} (h : Memory.wf m = true)
    (ha : a < Config.memSize) : Memory.wf (Memory.write m a b) = true :=
  write_wfFrom h (Nat.zero_le a) ha

theorem read_write_from {m : Memory} {low a k : Nat} {b : Byte} (h : Memory.wfFrom low m = true) :
    Memory.read (Memory.write m a b) k = if k = a then b else Memory.read m k := by
  induction m generalizing low with
  | nil => exact read_put rfl
  | cons c rest ih =>
    obtain ⟨h1, h2, h3, h4⟩ := wfFrom_cons.1 h
    rw [Memory.write]
    split
    · exact read_put (wfFrom_cons.2 ⟨by omega, h2, h3, h4⟩)
    · split
      · next hk =>
        subst hk
        rw [read_put h4]
        split
        · rfl
        · next hne => rw [Memory.read, if_neg (by omega)]
      · rw [Memory.read, Memory.read, ih h4]
        grind

/-- A read after a write: the byte written at its address, every other byte as before. -/
theorem read_write {m : Memory} {a k : Nat} {b : Byte} (h : Memory.wf m = true) :
    Memory.read (Memory.write m a b) k = if k = a then b else Memory.read m k :=
  read_write_from h

/-! ## Runs of bytes -/

theorem writeAll_wf {m : Memory} {a : Nat} {bs : List Byte} (h : Memory.wf m = true)
    (ha : a + bs.length ≤ Config.memSize) : Memory.wf (Memory.writeAll m a bs) = true := by
  induction bs generalizing m a with
  | nil => exact h
  | cons b bs ih =>
    rw [List.length_cons] at ha
    exact ih (write_wf h (by omega)) (by omega)

/-- A read after a run of writes inside memory: byte `k - a` of the run in its range, every other
byte as before. -/
theorem read_writeAll {m : Memory} {a k : Nat} {bs : List Byte} (h : Memory.wf m = true)
    (ha : a + bs.length ≤ Config.memSize) :
    Memory.read (Memory.writeAll m a bs) k =
      if a ≤ k ∧ k < a + bs.length then bs.getD (k - a) 0#8 else Memory.read m k := by
  induction bs generalizing m a with
  | nil => rw [Memory.writeAll, if_neg (by simp)]
  | cons b bs ih =>
    rw [List.length_cons] at ha
    rw [Memory.writeAll, ih (write_wf h (by omega)) (by omega), read_write h, List.length_cons]
    by_cases hk : k = a
    · subst hk; simp
    · by_cases h2 : a + 1 ≤ k ∧ k < a + 1 + bs.length
      · rw [if_pos h2, if_pos (by omega)]
        obtain ⟨d, hd⟩ : ∃ d, k - a = d + 1 := ⟨k - a - 1, by omega⟩
        rw [hd, List.getD_cons_succ]
        congr 1; omega
      · rw [if_neg h2, if_neg hk, if_neg (by omega)]

@[simp] theorem length_readAll (m : Memory) (a n : Nat) : (Memory.readAll m a n).length = n := by
  induction n generalizing a with
  | zero => rfl
  | succ n ih => rw [Memory.readAll, List.length_cons, ih]

theorem getElem?_readAll (m : Memory) (a n i : Nat) :
    (Memory.readAll m a n)[i]? = if i < n then some (Memory.read m (a + i)) else none := by
  induction n generalizing a i with
  | zero => simp [Memory.readAll]
  | succ n ih =>
    cases i with
    | zero => simp [Memory.readAll]
    | succ i =>
      rw [Memory.readAll, List.getElem?_cons_succ, ih]
      simp only [Nat.add_lt_add_iff_right]
      split
      · congr 2; omega
      · rfl

/-! ## The range check -/

theorem firstOutside_eq_none {base n : Nat} :
    firstOutside base n = none ↔ n = 0 ∨ base + n ≤ Config.memSize := by
  rw [firstOutside]; split <;> simp_all

theorem firstOutside_eq_some {base n a : Nat} :
    firstOutside base n = some a ↔
      n ≠ 0 ∧ Config.memSize < base + n ∧ a = max base Config.memSize := by
  rw [firstOutside]; split
  · next h => simp only [reduceCtorEq, false_iff]; omega
  · next h => simp only [Option.some.injEq]; omega

/-- The one case analysis of a checked read. -/
theorem readChecked_cases (m : Memory) (base n : Nat) :
    ((n = 0 ∨ base + n ≤ Config.memSize) ∧
        Memory.readChecked m base n = .ok (Memory.readAll m base n)) ∨
    (n ≠ 0 ∧ Config.memSize < base + n ∧
        Memory.readChecked m base n = .error (max base Config.memSize)) := by
  rw [Memory.readChecked]
  split
  · next a h => rw [firstOutside_eq_some] at h; right; simp [h]
  · next h => rw [firstOutside_eq_none] at h; left; exact ⟨h, rfl⟩

/-- The one case analysis of a checked write. -/
theorem writeChecked_cases (m : Memory) (base : Nat) (bs : List Byte) :
    ((bs.length = 0 ∨ base + bs.length ≤ Config.memSize) ∧
        Memory.writeChecked m base bs = .ok (Memory.writeAll m base bs)) ∨
    (bs.length ≠ 0 ∧ Config.memSize < base + bs.length ∧
        Memory.writeChecked m base bs = .error (max base Config.memSize)) := by
  rw [Memory.writeChecked]
  split
  · next a h =>
    rw [firstOutside_eq_some] at h; right
    exact ⟨h.1, h.2.1, by rw [h.2.2]⟩
  · next h => rw [firstOutside_eq_none] at h; left; exact ⟨h, rfl⟩

/-- A checked write that succeeds keeps the canonical form. -/
theorem writeChecked_wf {m m' : Memory} {base : Nat} {bs : List Byte} (h : Memory.wf m = true)
    (hw : Memory.writeChecked m base bs = .ok m') : Memory.wf m' = true := by
  rcases writeChecked_cases m base bs with ⟨hr, he⟩ | ⟨-, -, he⟩
  · rw [he, Except.ok.injEq] at hw
    subst hw
    rcases hr with h0 | hr
    · rw [List.length_eq_zero_iff] at h0; subst h0; exact h
    · exact writeAll_wf h hr
  · rw [he] at hw; cases hw

end Sys2Proof.Laws
end

