-- ==== Sys2Proof/Laws/State.lean ====
section
/-! SUPPORT. One lemma per field and per named update of the CORE's state: what the update leaves in the field.
Later proofs rewrite with these and unfold no record update. -/

namespace Sys2Proof.Machine.CoreState

/-! ## setV -/

@[simp] theorem setV_v (s : CoreState) (x : RegIdx) (b : Byte) : (s.setV x b).v = s.v.set x.val b x.isLt := rfl
@[simp] theorem setV_pc (s : CoreState) (x : RegIdx) (b : Byte) : (s.setV x b).pc = s.pc := rfl
@[simp] theorem setV_idx (s : CoreState) (x : RegIdx) (b : Byte) : (s.setV x b).idx = s.idx := rfl
@[simp] theorem setV_sp (s : CoreState) (x : RegIdx) (b : Byte) : (s.setV x b).sp = s.sp := rfl
@[simp] theorem setV_stack (s : CoreState) (x : RegIdx) (b : Byte) : (s.setV x b).stack = s.stack := rfl
@[simp] theorem setV_dt (s : CoreState) (x : RegIdx) (b : Byte) : (s.setV x b).dt = s.dt := rfl
@[simp] theorem setV_st (s : CoreState) (x : RegIdx) (b : Byte) : (s.setV x b).st = s.st := rfl
@[simp] theorem setV_mem (s : CoreState) (x : RegIdx) (b : Byte) : (s.setV x b).mem = s.mem := rfl
@[simp] theorem setV_fb (s : CoreState) (x : RegIdx) (b : Byte) : (s.setV x b).fb = s.fb := rfl
@[simp] theorem setV_key (s : CoreState) (x : RegIdx) (b : Byte) : (s.setV x b).key = s.key := rfl
@[simp] theorem setV_wait (s : CoreState) (x : RegIdx) (b : Byte) : (s.setV x b).wait = s.wait := rfl
@[simp] theorem setV_waitReg (s : CoreState) (x : RegIdx) (b : Byte) : (s.setV x b).waitReg = s.waitReg := rfl
@[simp] theorem setV_latch (s : CoreState) (x : RegIdx) (b : Byte) : (s.setV x b).latch = s.latch := rfl
@[simp] theorem setV_fault (s : CoreState) (x : RegIdx) (b : Byte) : (s.setV x b).fault = s.fault := rfl

/-! ## setPC -/

@[simp] theorem setPC_v (s : CoreState) (a : Word) : (s.setPC a).v = s.v := rfl
@[simp] theorem setPC_pc (s : CoreState) (a : Word) : (s.setPC a).pc = a := rfl
@[simp] theorem setPC_idx (s : CoreState) (a : Word) : (s.setPC a).idx = s.idx := rfl
@[simp] theorem setPC_sp (s : CoreState) (a : Word) : (s.setPC a).sp = s.sp := rfl
@[simp] theorem setPC_stack (s : CoreState) (a : Word) : (s.setPC a).stack = s.stack := rfl
@[simp] theorem setPC_dt (s : CoreState) (a : Word) : (s.setPC a).dt = s.dt := rfl
@[simp] theorem setPC_st (s : CoreState) (a : Word) : (s.setPC a).st = s.st := rfl
@[simp] theorem setPC_mem (s : CoreState) (a : Word) : (s.setPC a).mem = s.mem := rfl
@[simp] theorem setPC_fb (s : CoreState) (a : Word) : (s.setPC a).fb = s.fb := rfl
@[simp] theorem setPC_key (s : CoreState) (a : Word) : (s.setPC a).key = s.key := rfl
@[simp] theorem setPC_wait (s : CoreState) (a : Word) : (s.setPC a).wait = s.wait := rfl
@[simp] theorem setPC_waitReg (s : CoreState) (a : Word) : (s.setPC a).waitReg = s.waitReg := rfl
@[simp] theorem setPC_latch (s : CoreState) (a : Word) : (s.setPC a).latch = s.latch := rfl
@[simp] theorem setPC_fault (s : CoreState) (a : Word) : (s.setPC a).fault = s.fault := rfl

/-! ## setI -/

@[simp] theorem setI_v (s : CoreState) (a : Word) : (s.setI a).v = s.v := rfl
@[simp] theorem setI_pc (s : CoreState) (a : Word) : (s.setI a).pc = s.pc := rfl
@[simp] theorem setI_idx (s : CoreState) (a : Word) : (s.setI a).idx = a := rfl
@[simp] theorem setI_sp (s : CoreState) (a : Word) : (s.setI a).sp = s.sp := rfl
@[simp] theorem setI_stack (s : CoreState) (a : Word) : (s.setI a).stack = s.stack := rfl
@[simp] theorem setI_dt (s : CoreState) (a : Word) : (s.setI a).dt = s.dt := rfl
@[simp] theorem setI_st (s : CoreState) (a : Word) : (s.setI a).st = s.st := rfl
@[simp] theorem setI_mem (s : CoreState) (a : Word) : (s.setI a).mem = s.mem := rfl
@[simp] theorem setI_fb (s : CoreState) (a : Word) : (s.setI a).fb = s.fb := rfl
@[simp] theorem setI_key (s : CoreState) (a : Word) : (s.setI a).key = s.key := rfl
@[simp] theorem setI_wait (s : CoreState) (a : Word) : (s.setI a).wait = s.wait := rfl
@[simp] theorem setI_waitReg (s : CoreState) (a : Word) : (s.setI a).waitReg = s.waitReg := rfl
@[simp] theorem setI_latch (s : CoreState) (a : Word) : (s.setI a).latch = s.latch := rfl
@[simp] theorem setI_fault (s : CoreState) (a : Word) : (s.setI a).fault = s.fault := rfl

/-! ## setDT -/

@[simp] theorem setDT_v (s : CoreState) (b : Byte) : (s.setDT b).v = s.v := rfl
@[simp] theorem setDT_pc (s : CoreState) (b : Byte) : (s.setDT b).pc = s.pc := rfl
@[simp] theorem setDT_idx (s : CoreState) (b : Byte) : (s.setDT b).idx = s.idx := rfl
@[simp] theorem setDT_sp (s : CoreState) (b : Byte) : (s.setDT b).sp = s.sp := rfl
@[simp] theorem setDT_stack (s : CoreState) (b : Byte) : (s.setDT b).stack = s.stack := rfl
@[simp] theorem setDT_dt (s : CoreState) (b : Byte) : (s.setDT b).dt = b := rfl
@[simp] theorem setDT_st (s : CoreState) (b : Byte) : (s.setDT b).st = s.st := rfl
@[simp] theorem setDT_mem (s : CoreState) (b : Byte) : (s.setDT b).mem = s.mem := rfl
@[simp] theorem setDT_fb (s : CoreState) (b : Byte) : (s.setDT b).fb = s.fb := rfl
@[simp] theorem setDT_key (s : CoreState) (b : Byte) : (s.setDT b).key = s.key := rfl
@[simp] theorem setDT_wait (s : CoreState) (b : Byte) : (s.setDT b).wait = s.wait := rfl
@[simp] theorem setDT_waitReg (s : CoreState) (b : Byte) : (s.setDT b).waitReg = s.waitReg := rfl
@[simp] theorem setDT_latch (s : CoreState) (b : Byte) : (s.setDT b).latch = s.latch := rfl
@[simp] theorem setDT_fault (s : CoreState) (b : Byte) : (s.setDT b).fault = s.fault := rfl

/-! ## setST -/

@[simp] theorem setST_v (s : CoreState) (b : Byte) : (s.setST b).v = s.v := rfl
@[simp] theorem setST_pc (s : CoreState) (b : Byte) : (s.setST b).pc = s.pc := rfl
@[simp] theorem setST_idx (s : CoreState) (b : Byte) : (s.setST b).idx = s.idx := rfl
@[simp] theorem setST_sp (s : CoreState) (b : Byte) : (s.setST b).sp = s.sp := rfl
@[simp] theorem setST_stack (s : CoreState) (b : Byte) : (s.setST b).stack = s.stack := rfl
@[simp] theorem setST_dt (s : CoreState) (b : Byte) : (s.setST b).dt = s.dt := rfl
@[simp] theorem setST_st (s : CoreState) (b : Byte) : (s.setST b).st = b := rfl
@[simp] theorem setST_mem (s : CoreState) (b : Byte) : (s.setST b).mem = s.mem := rfl
@[simp] theorem setST_fb (s : CoreState) (b : Byte) : (s.setST b).fb = s.fb := rfl
@[simp] theorem setST_key (s : CoreState) (b : Byte) : (s.setST b).key = s.key := rfl
@[simp] theorem setST_wait (s : CoreState) (b : Byte) : (s.setST b).wait = s.wait := rfl
@[simp] theorem setST_waitReg (s : CoreState) (b : Byte) : (s.setST b).waitReg = s.waitReg := rfl
@[simp] theorem setST_latch (s : CoreState) (b : Byte) : (s.setST b).latch = s.latch := rfl
@[simp] theorem setST_fault (s : CoreState) (b : Byte) : (s.setST b).fault = s.fault := rfl

/-! ## setMem -/

@[simp] theorem setMem_v (s : CoreState) (m : Memory) : (s.setMem m).v = s.v := rfl
@[simp] theorem setMem_pc (s : CoreState) (m : Memory) : (s.setMem m).pc = s.pc := rfl
@[simp] theorem setMem_idx (s : CoreState) (m : Memory) : (s.setMem m).idx = s.idx := rfl
@[simp] theorem setMem_sp (s : CoreState) (m : Memory) : (s.setMem m).sp = s.sp := rfl
@[simp] theorem setMem_stack (s : CoreState) (m : Memory) : (s.setMem m).stack = s.stack := rfl
@[simp] theorem setMem_dt (s : CoreState) (m : Memory) : (s.setMem m).dt = s.dt := rfl
@[simp] theorem setMem_st (s : CoreState) (m : Memory) : (s.setMem m).st = s.st := rfl
@[simp] theorem setMem_mem (s : CoreState) (m : Memory) : (s.setMem m).mem = m := rfl
@[simp] theorem setMem_fb (s : CoreState) (m : Memory) : (s.setMem m).fb = s.fb := rfl
@[simp] theorem setMem_key (s : CoreState) (m : Memory) : (s.setMem m).key = s.key := rfl
@[simp] theorem setMem_wait (s : CoreState) (m : Memory) : (s.setMem m).wait = s.wait := rfl
@[simp] theorem setMem_waitReg (s : CoreState) (m : Memory) : (s.setMem m).waitReg = s.waitReg := rfl
@[simp] theorem setMem_latch (s : CoreState) (m : Memory) : (s.setMem m).latch = s.latch := rfl
@[simp] theorem setMem_fault (s : CoreState) (m : Memory) : (s.setMem m).fault = s.fault := rfl

/-! ## setFB -/

@[simp] theorem setFB_v (s : CoreState) (f : Framebuffer) : (s.setFB f).v = s.v := rfl
@[simp] theorem setFB_pc (s : CoreState) (f : Framebuffer) : (s.setFB f).pc = s.pc := rfl
@[simp] theorem setFB_idx (s : CoreState) (f : Framebuffer) : (s.setFB f).idx = s.idx := rfl
@[simp] theorem setFB_sp (s : CoreState) (f : Framebuffer) : (s.setFB f).sp = s.sp := rfl
@[simp] theorem setFB_stack (s : CoreState) (f : Framebuffer) : (s.setFB f).stack = s.stack := rfl
@[simp] theorem setFB_dt (s : CoreState) (f : Framebuffer) : (s.setFB f).dt = s.dt := rfl
@[simp] theorem setFB_st (s : CoreState) (f : Framebuffer) : (s.setFB f).st = s.st := rfl
@[simp] theorem setFB_mem (s : CoreState) (f : Framebuffer) : (s.setFB f).mem = s.mem := rfl
@[simp] theorem setFB_fb (s : CoreState) (f : Framebuffer) : (s.setFB f).fb = f := rfl
@[simp] theorem setFB_key (s : CoreState) (f : Framebuffer) : (s.setFB f).key = s.key := rfl
@[simp] theorem setFB_wait (s : CoreState) (f : Framebuffer) : (s.setFB f).wait = s.wait := rfl
@[simp] theorem setFB_waitReg (s : CoreState) (f : Framebuffer) : (s.setFB f).waitReg = s.waitReg := rfl
@[simp] theorem setFB_latch (s : CoreState) (f : Framebuffer) : (s.setFB f).latch = s.latch := rfl
@[simp] theorem setFB_fault (s : CoreState) (f : Framebuffer) : (s.setFB f).fault = s.fault := rfl

/-! ## advance -/

@[simp] theorem advance_v (s : CoreState) : (s.advance).v = s.v := rfl
@[simp] theorem advance_pc (s : CoreState) : (s.advance).pc = s.pc + 2#16 := rfl
@[simp] theorem advance_idx (s : CoreState) : (s.advance).idx = s.idx := rfl
@[simp] theorem advance_sp (s : CoreState) : (s.advance).sp = s.sp := rfl
@[simp] theorem advance_stack (s : CoreState) : (s.advance).stack = s.stack := rfl
@[simp] theorem advance_dt (s : CoreState) : (s.advance).dt = s.dt := rfl
@[simp] theorem advance_st (s : CoreState) : (s.advance).st = s.st := rfl
@[simp] theorem advance_mem (s : CoreState) : (s.advance).mem = s.mem := rfl
@[simp] theorem advance_fb (s : CoreState) : (s.advance).fb = s.fb := rfl
@[simp] theorem advance_key (s : CoreState) : (s.advance).key = s.key := rfl
@[simp] theorem advance_wait (s : CoreState) : (s.advance).wait = s.wait := rfl
@[simp] theorem advance_waitReg (s : CoreState) : (s.advance).waitReg = s.waitReg := rfl
@[simp] theorem advance_latch (s : CoreState) : (s.advance).latch = s.latch := rfl
@[simp] theorem advance_fault (s : CoreState) : (s.advance).fault = s.fault := rfl

/-! ## recordFault -/

@[simp] theorem recordFault_v (s : CoreState) (r : Fault) : (s.recordFault r).v = s.v := rfl
@[simp] theorem recordFault_pc (s : CoreState) (r : Fault) : (s.recordFault r).pc = s.pc := rfl
@[simp] theorem recordFault_idx (s : CoreState) (r : Fault) : (s.recordFault r).idx = s.idx := rfl
@[simp] theorem recordFault_sp (s : CoreState) (r : Fault) : (s.recordFault r).sp = s.sp := rfl
@[simp] theorem recordFault_stack (s : CoreState) (r : Fault) : (s.recordFault r).stack = s.stack := rfl
@[simp] theorem recordFault_dt (s : CoreState) (r : Fault) : (s.recordFault r).dt = s.dt := rfl
@[simp] theorem recordFault_st (s : CoreState) (r : Fault) : (s.recordFault r).st = s.st := rfl
@[simp] theorem recordFault_mem (s : CoreState) (r : Fault) : (s.recordFault r).mem = s.mem := rfl
@[simp] theorem recordFault_fb (s : CoreState) (r : Fault) : (s.recordFault r).fb = s.fb := rfl
@[simp] theorem recordFault_key (s : CoreState) (r : Fault) : (s.recordFault r).key = s.key := rfl
@[simp] theorem recordFault_wait (s : CoreState) (r : Fault) : (s.recordFault r).wait = s.wait := rfl
@[simp] theorem recordFault_waitReg (s : CoreState) (r : Fault) : (s.recordFault r).waitReg = s.waitReg := rfl
@[simp] theorem recordFault_latch (s : CoreState) (r : Fault) : (s.recordFault r).latch = s.latch := rfl
@[simp] theorem recordFault_fault (s : CoreState) (r : Fault) : (s.recordFault r).fault = some r := rfl

end Sys2Proof.Machine.CoreState

namespace Sys2Proof.Machine.State

/-! ## countDraw and goOn -/

@[simp] theorem countDraw_core (s : State) : s.countDraw.toCoreState = s.toCoreState := rfl
@[simp] theorem countDraw_draws (s : State) : s.countDraw.draws = s.draws + 1 := rfl

/-- Going on answers the CORE's new state and leaves the random source where it is. -/
@[simp] theorem goOn_eq_next (s t : State) (c : CoreState) :
    s.goOn c = .next t ↔ t.toCoreState = c ∧ t.draws = s.draws := by
  rw [State.goOn, Host.Outcome.next.injEq]
  exact ⟨fun h => h ▸ ⟨rfl, rfl⟩, fun h => by obtain ⟨rfl, h2⟩ := h; rw [← h2]⟩

end Sys2Proof.Machine.State
end

