-- ==== Sys2Proof/Laws/Ops.lean ====
section
/-! SUPPORT. For each shared operation, the lemma that says everything it can do; the meanings' proofs
cite these and unfold no operation. -/

namespace Sys2Proof.Laws

open Sys2Proof.Machine

/-! ## Registers -/

@[simp] theorem getV_setV_same (s : CoreState) (x : RegIdx) (b : Byte) : (s.setV x b).getV x = b := by
  simp [CoreState.getV, Vector.get_eq_getElem]

@[simp] theorem getV_setV_ne (s : CoreState) (x r : RegIdx) (b : Byte) (h : r ≠ x) :
    (s.setV x b).getV r = s.getV r := by
  simp only [CoreState.getV, CoreState.setV_v, Vector.get_eq_getElem]
  exact Vector.getElem_set_ne _ _ (fun e => h (Fin.ext e.symm))

theorem getV_setV (s : CoreState) (x r : RegIdx) (b : Byte) :
    (s.setV x b).getV r = if r = x then b else s.getV r := by
  split
  · next h => rw [h, getV_setV_same]
  · next h => exact getV_setV_ne s x r b h

theorem getV_congr {s t : CoreState} (h : s.v = t.v) (r : RegIdx) : s.getV r = t.getV r := by
  rw [CoreState.getV, h]; rfl

@[simp] theorem getV_setPC (s : CoreState) (a : Word) (r : RegIdx) : (s.setPC a).getV r = s.getV r := rfl
@[simp] theorem getV_setI (s : CoreState) (a : Word) (r : RegIdx) : (s.setI a).getV r = s.getV r := rfl
@[simp] theorem getV_setDT (s : CoreState) (b : Byte) (r : RegIdx) : (s.setDT b).getV r = s.getV r := rfl
@[simp] theorem getV_setST (s : CoreState) (b : Byte) (r : RegIdx) : (s.setST b).getV r = s.getV r := rfl
@[simp] theorem getV_setMem (s : CoreState) (m : Memory) (r : RegIdx) :
    (s.setMem m).getV r = s.getV r := rfl
@[simp] theorem getV_setFB (s : CoreState) (f : Framebuffer) (r : RegIdx) :
    (s.setFB f).getV r = s.getV r := rfl
@[simp] theorem getV_advance (s : CoreState) (r : RegIdx) : s.advance.getV r = s.getV r := rfl

/-- The registers after a flag and then a result are written: the result's register holds the result,
VF another than it the flag, every other register its old value (R98, R160). -/
theorem getV_setFlagThenResult (s : CoreState) (flag : Bool) (x r : RegIdx) (result : Byte) :
    (s.setFlagThenResult flag x result).getV r =
      if r = x then result else if r = vf then flagByte flag else s.getV r := by
  rw [CoreState.setFlagThenResult, getV_setV, getV_setV]

/-- A flag and a result change the register file alone. -/
theorem setFlagThenResult_eq (s : CoreState) (flag : Bool) (x : RegIdx) (result : Byte) :
    s.setFlagThenResult flag x result =
      { s with v := (s.setFlagThenResult flag x result).v } := rfl

/-! ## Register blocks -/

@[simp] theorem length_firstRegs (s : CoreState) (x : RegIdx) : (s.firstRegs x).length = x.val + 1 := by
  simp [CoreState.firstRegs]

theorem getElem?_firstRegs (s : CoreState) (x r : RegIdx) (h : r.val ≤ x.val) :
    (s.firstRegs x)[r.val]? = some (s.getV r) := by
  simp [CoreState.firstRegs, CoreState.getV, Vector.get_eq_getElem, Nat.lt_succ_of_le h]

/-- A block load changes the register file alone. -/
theorem setRegsFrom_eq (s : CoreState) (i : Nat) (bs : List Byte) :
    s.setRegsFrom i bs = { s with v := (s.setRegsFrom i bs).v } := by
  induction bs generalizing s i with
  | nil => rfl
  | cons b bs ih =>
    rw [CoreState.setRegsFrom]
    split
    · exact ih _ _
    · rfl

/-- The registers after a block load: byte `r - i` of the block in its range, every other register as
before (R194). -/
theorem getV_setRegsFrom (s : CoreState) (i : Nat) (bs : List Byte) (r : RegIdx) :
    (s.setRegsFrom i bs).getV r =
      if i ≤ r.val ∧ r.val < i + bs.length then bs.getD (r.val - i) 0#8 else s.getV r := by
  induction bs generalizing s i with
  | nil => rw [CoreState.setRegsFrom, if_neg (by simp)]
  | cons b bs ih =>
    rw [CoreState.setRegsFrom]
    split
    · next hi =>
      rw [ih, getV_setV, List.length_cons]
      by_cases hr : r.val = i
      · rw [if_neg (by omega), if_pos (Fin.ext hr), if_pos (by omega)]
        simp [hr]
      · rw [if_neg (fun e => hr (congrArg Fin.val e))]
        by_cases h2 : i + 1 ≤ r.val ∧ r.val < i + 1 + bs.length
        · rw [if_pos h2, if_pos (by omega)]
          obtain ⟨d, hd⟩ : ∃ d, r.val - i = d + 1 := ⟨r.val - i - 1, by omega⟩
          rw [hd, List.getD_cons_succ]
          congr 1; omega
        · rw [if_neg h2, if_neg (by omega)]
    · next hi => rw [if_neg (by have := r.isLt; omega)]

/-! ## The call stack -/

/-- The two cases of a return (R120). -/
theorem popCall_cases (s : CoreState) :
    (s.sp.val = 0 ∧ s.popCall = (s, .stackUnderflow)) ∨
    (∃ j : SlotIdx, ∃ p : Fin 17, s.sp.val = j.val + 1 ∧ p.val = j.val ∧
      s.popCall = ({ s with pc := s.stack.get j, sp := p }, .none)) := by
  rw [CoreState.popCall]
  split
  · next h => exact .inl ⟨h, rfl⟩
  · next h =>
    exact .inr ⟨⟨s.sp.val - 1, by omega⟩, ⟨s.sp.val - 1, by omega⟩, by simp; omega, rfl, rfl⟩

/-- The two cases of a call (R122). -/
theorem pushCall_cases (target : Word) (s : CoreState) :
    (s.sp.val = 16 ∧ s.pushCall target = (s, .stackOverflow)) ∨
    (∃ j : SlotIdx, ∃ p : Fin 17, s.sp.val = j.val ∧ p.val = j.val + 1 ∧
      s.pushCall target =
        ({ s with stack := s.stack.set j.val s.pc j.isLt, sp := p, pc := target }, .none)) := by
  rw [CoreState.pushCall]
  split
  · next h => exact .inr ⟨⟨s.sp.val, h⟩, ⟨s.sp.val + 1, by omega⟩, rfl, rfl, rfl⟩
  · next h => exact .inl ⟨by omega, rfl⟩

/-- A slot after a push: the pushed one holds the value, every other one its old value. -/
theorem get_set_slot (st : Vector Word 16) (i j : SlotIdx) (a : Word) :
    (st.set i.val a i.isLt).get j = if j = i then a else st.get j := by
  simp only [Vector.get_eq_getElem, Vector.getElem_set, Fin.ext_iff, eq_comm]

/-! ## Skips and checked accesses -/

/-- A skip moves PC by 2 when its condition holds, and changes nothing else. -/
theorem skipIf_eq (c : Bool) (s : CoreState) :
    s.skipIf c = { s with pc := if c then s.pc + 2#16 else s.pc } := by
  cases c <;> rfl

@[simp] theorem withAccess_ok {α : Type} (i : Instr) (s : State) (a : α) (k : α → CoreState) :
    withAccess i s (.ok a) k = s.goOn (k a) := rfl

@[simp] theorem withAccess_error {α : Type} (i : Instr) (s : State) (addr : Nat) (k : α → CoreState) :
    withAccess i s (.error addr) k = raiseAddress i addr s := rfl

/-- An instruction that goes through a checked access goes on exactly when the access is in range. -/
theorem withAccess_eq_next {α : Type} {i : Instr} {s t : State} {r : Except Nat α} {k : α → CoreState} :
    withAccess i s r k = .next t ↔ ∃ a, r = .ok a ∧ t.toCoreState = k a ∧ t.draws = s.draws := by
  cases r with
  | ok a => simp
  | error e => simp [raiseAddress]

/-! ## Keys -/

theorem keyOf_eq_some {b : Byte} {k : KeyIdx} : keyOf b = some k ↔ b.toNat = k.val := by
  rw [keyOf]
  split
  · next h => simp [Fin.ext_iff]
  · next h => simp only [reduceCtorEq, false_iff]; have := k.isLt; omega

theorem keyOf_eq_none {b : Byte} : keyOf b = none ↔ 15 < b.toNat := by
  rw [keyOf]; split <;> simp <;> omega

/-- The two cases of a key skip (R170, R171, R175). -/
theorem skipOnKey_cases (i : Instr) (x : RegIdx) (level : Bool) (s : State) :
    (∃ k : KeyIdx, (s.getV x).toNat = k.val ∧
      skipOnKey i x level s = s.goOn (s.skipIf (s.key.get k == level))) ∨
    (15 < (s.getV x).toNat ∧ skipOnKey i x level s = raiseKeyIndex i (s.getV x) s) := by
  rw [skipOnKey]
  split
  · next k h => exact .inl ⟨k, keyOf_eq_some.1 h, rfl⟩
  · next h => exact .inr ⟨keyOf_eq_none.1 h, rfl⟩

theorem get_set_key (ks : Vector Bool 16) (i j : KeyIdx) (b : Bool) :
    (ks.set i.val b i.isLt).get j = if j = i then b else ks.get j := by
  simp only [Vector.get_eq_getElem, Vector.getElem_set, Fin.ext_iff, eq_comm]

/-- The two cases of the latch update (R174). -/
theorem latchKey_cases (k : KeyIdx) (p : Bool) (s : CoreState) :
    ((s.wait = true ∧ s.latch = none ∧ p = true ∧ s.key.get k = false) ∧
      latchKey k p s = { s with latch := some k }) ∨
    (¬(s.wait = true ∧ s.latch = none ∧ p = true ∧ s.key.get k = false) ∧ latchKey k p s = s) := by
  rw [latchKey]
  split
  · next h => left; simp_all
  · next h => right; refine ⟨?_, rfl⟩; rintro ⟨h1, h2, h3, h4⟩; simp_all

/-! ## Pixels -/

/-- A pixel after one pixel is written. -/
theorem pixel_setPixel (fb : Framebuffer) (px qx : Column) (py qy : Row) (b : Bool) :
    pixel (setPixel fb px py b) qx qy = if qx = px ∧ qy = py then b else pixel fb qx qy := by
  simp only [pixel, setPixel, Vector.get_eq_getElem, Vector.getElem_set, Fin.ext_iff]
  by_cases hy : py.val = qy.val
  · simp [hy, Vector.getElem_set, eq_comm]
  · rw [if_neg hy, if_neg (fun h => hy h.2.symm)]

theorem pixel_foldl_setPixel (fb acc : Framebuffer) (ps : List (Column × Row)) (qx : Column) (qy : Row) :
    pixel (ps.foldl (fun acc p => setPixel acc p.1 p.2 (!pixel fb p.1 p.2)) acc) qx qy =
      if (qx, qy) ∈ ps then !pixel fb qx qy else pixel acc qx qy := by
  induction ps generalizing acc with
  | nil => simp
  | cons p ps ih =>
    rw [List.foldl_cons, ih, pixel_setPixel]
    by_cases h1 : (qx, qy) ∈ ps
    · simp [h1]
    · by_cases h2 : qx = p.1 ∧ qy = p.2
      · obtain ⟨rfl, rfl⟩ := h2; simp
      · have h3 : (qx, qy) ≠ p := fun e => h2 ⟨congrArg Prod.fst e, congrArg Prod.snd e⟩
        simp [h1, h2, h3]

/-- A pixel after a draw: inverted where the sprite has a set bit, as before elsewhere (R111). -/
theorem pixel_xorPixels (fb : Framebuffer) (ps : List (Column × Row)) (qx : Column) (qy : Row) :
    pixel (xorPixels fb ps) qx qy = if (qx, qy) ∈ ps then !pixel fb qx qy else pixel fb qx qy :=
  pixel_foldl_setPixel fb fb ps qx qy

@[simp] theorem pixel_blankScreen (px : Column) (py : Row) : pixel blankScreen px py = false := by
  simp [pixel, blankScreen, Vector.get_eq_getElem]

theorem collision_eq_true {fb : Framebuffer} {ps : List (Column × Row)} :
    collision fb ps = true ↔ ∃ px py, (px, py) ∈ ps ∧ pixel fb px py = true := by
  simp [collision]

theorem mem_rowPixels {x0 : Nat} {py qy : Row} {qx : Column} {row : Byte} :
    (qx, qy) ∈ rowPixels x0 py row ↔
      qy = py ∧ ∃ c, c < 8 ∧ row.getLsbD (7 - c) = true ∧ qx = Fin.ofNat 64 (x0 + c) := by
  have hc : ∀ c, c ∈ spriteColumns ↔ c < 8 := by intro c; simp [spriteColumns]; omega
  simp only [rowPixels, List.mem_map, List.mem_filter, hc, Prod.mk.injEq]
  constructor
  · rintro ⟨c, ⟨h1, h2⟩, h3, h4⟩; exact ⟨h4.symm, c, h1, h2, h3.symm⟩
  · rintro ⟨h4, c, h1, h2, h3⟩; exact ⟨c, ⟨h1, h2⟩, h3.symm, h4.symm⟩

/-- The pixels a sprite touches: bit 7 - c of row r at (x0 + c, y + r), wrapped (R111). -/
theorem mem_spritePixels {x0 y : Nat} {rows : List Byte} {qx : Column} {qy : Row} :
    (qx, qy) ∈ spritePixels x0 y rows ↔
      ∃ r c, r < rows.length ∧ c < 8 ∧ (rows.getD r 0#8).getLsbD (7 - c) = true ∧
        qx = Fin.ofNat 64 (x0 + c) ∧ qy = Fin.ofNat 32 (y + r) := by
  induction rows generalizing y with
  | nil => simp [spritePixels]
  | cons row rows ih =>
    rw [spritePixels, List.mem_append, mem_rowPixels, ih]
    constructor
    · rintro (⟨h1, c, h2, h3, h4⟩ | ⟨r, c, h1, h2, h3, h4, h5⟩)
      · exact ⟨0, c, by simp, h2, by simpa using h3, h4, by simpa using h1⟩
      · exact ⟨r + 1, c, by simpa using h1, h2, by simpa using h3, h4, by rw [h5]; congr 1; omega⟩
    · rintro ⟨r, c, h1, h2, h3, h4, h5⟩
      cases r with
      | zero => exact .inl ⟨by simpa using h5, c, h2, by simpa using h3, h4⟩
      | succ r =>
        exact .inr ⟨r, c, by simpa using h1, h2, by simpa using h3, h4, by rw [h5]; congr 1; omega⟩

/-! ## Fetch -/

/-- The two cases of a fetch (R93, R94). -/
theorem fetchWord_cases (s : CoreState) :
    (s.pc.toNat + 2 ≤ Config.memSize ∧
      s.fetchWord = .ok (wordOfBytes (s.readByte s.pc.toNat) (s.readByte (s.pc.toNat + 1)))) ∨
    (Config.memSize < s.pc.toNat + 2 ∧
      s.fetchWord = .error (max s.pc.toNat Config.memSize)) := by
  rw [CoreState.fetchWord]
  split
  · next a h =>
    rw [firstOutside_eq_some] at h
    exact .inr ⟨h.2.1, by rw [h.2.2]⟩
  · next h =>
    rw [firstOutside_eq_none] at h
    exact .inl ⟨by omega, rfl⟩

end Sys2Proof.Laws
end

