-- ==== Sys2Proof/Laws/Step.lean ====
section
/-! SUPPORT. The inversion lemma of one step, for the step that draws its random byte and for the
host's step with a given one. -/

namespace Sys2Proof.Laws

open Sys2Proof.Machine

section Cycle

variable {σ : Type} {s : CoreState} {goOn : CoreState → Host.Outcome σ Fault Refusal}
  {execute : Instr → CoreState → Host.Outcome σ Fault Refusal}

/-- The outcome of a cycle is fixed by the work the priority of R218 selects. -/
theorem cycle_of_frozen {r : Fault} (h : s.nextWork = .frozen r) :
    cycle s goOn execute = .refused (.machineFaulted r) := by
  rw [cycle, h]

theorem cycle_of_keyWait (h : s.nextWork = .keyWait) :
    cycle s goOn execute = goOn (keyWaitPass s) := by
  rw [cycle, h]

theorem cycle_of_fetchFault {a : Nat} (h : s.nextWork = .fetchFault a) :
    cycle s goOn execute = .fault (.addressFault a s.pc none) := by
  rw [cycle, h]

theorem cycle_of_unknown {op : Word} (h : s.nextWork = .unknown op) :
    cycle s goOn execute = goOn s.advance := by
  rw [cycle, h]; rfl

theorem cycle_of_run {i : Instr} (h : s.nextWork = .run i) :
    cycle s goOn execute = execute i s.advance := by
  rw [cycle, h]

/-- Everything a cycle that goes on can have done: a key-wait pass, an unknown opcode's no-op, or the
decoded instruction on the state after the fetch. -/
theorem cycle_next {t : σ} (h : cycle s goOn execute = .next t) :
    (s.nextWork = .keyWait ∧ goOn (keyWaitPass s) = .next t) ∨
    (∃ op, s.nextWork = .unknown op ∧ goOn s.advance = .next t) ∨
    (∃ i, s.nextWork = .run i ∧ execute i s.advance = .next t) := by
  rw [cycle] at h
  split at h
  · cases h
  · next hw => exact .inl ⟨hw, h⟩
  · cases h
  · next op hw => exact .inr (.inl ⟨op, hw, h⟩)
  · next i hw => exact .inr (.inr ⟨i, hw, h⟩)

end Cycle

/-- Everything a step of the interface that goes on can have done. -/
theorem step_next {s t : State} (h : step s = .next t) :
    (s.nextWork = .keyWait ∧ t = { s with toCoreState := keyWaitPass s.toCoreState }) ∨
    (∃ op, s.nextWork = .unknown op ∧ t = { s with toCoreState := s.advance }) ∨
    (∃ i, s.nextWork = .run i ∧ exec i { s with toCoreState := s.advance } = .next t) := by
  rcases cycle_next h with ⟨hn, h⟩ | ⟨op, hn, h⟩ | h
  · cases h; exact .inl ⟨hn, rfl⟩
  · cases h; exact .inr (.inl ⟨op, hn, rfl⟩)
  · exact .inr (.inr h)

/-- Everything a step of the CORE that goes on can have done. -/
theorem stepWith_next {rnd : Byte} {s t : CoreState} (h : s.stepWith rnd = .next t) :
    (s.nextWork = .keyWait ∧ t = keyWaitPass s) ∨
    (∃ op, s.nextWork = .unknown op ∧ t = s.advance) ∨
    (∃ i, s.nextWork = .run i ∧ s.advance.executeWith rnd i = .next t) := by
  rcases cycle_next h with ⟨hn, h⟩ | ⟨op, hn, h⟩ | h
  · cases h; exact .inl ⟨hn, rfl⟩
  · cases h; exact .inr (.inl ⟨op, hn, rfl⟩)
  · exact .inr (.inr h)

/-- With the byte the random source gives next, the CORE's execute phase is the CORE's part of the meaning. -/
theorem coreOutcome_exec (i : Instr) (s : State) :
    coreOutcome (exec i s) = s.toCoreState.executeWith (Config.randomByte s.draws) i := by
  cases i
  case drw | ldB | store | load =>
    simp only [CoreState.executeWith, exec, execDrw, execLdB, execStore, execLoad, withAccess]
    split <;> rfl
  case skp => simp only [CoreState.executeWith, exec, execSkp, skipOnKey]; split <;> rfl
  case sknp => simp only [CoreState.executeWith, exec, execSknp, skipOnKey]; split <;> rfl
  all_goals rfl

/-- Every instruction but Cxkk ignores the random input. -/
theorem executeWith_eq (a b : Byte) (i : Instr) (s : CoreState) (h : ∀ x kk, i ≠ .rnd x kk) :
    s.executeWith a i = s.executeWith b i := by
  cases i <;> first | rfl | exact absurd rfl (h _ _)

/-- What the CORE's execute phase of an instruction but Cxkk answers is the CORE's part of the meaning. -/
theorem executeWith_eq_exec (rnd : Byte) (i : Instr) (s : CoreState) (n : Nat) (h : ∀ x kk, i ≠ .rnd x kk) :
    s.executeWith rnd i = coreOutcome (exec i { toCoreState := s, draws := n }) := by
  rw [coreOutcome_exec]; exact executeWith_eq _ _ i s h

/-- A CORE part that goes on belongs to an outcome that goes on. -/
theorem coreOutcome_eq_next {o : Outcome} {t : CoreState} :
    coreOutcome o = .next t ↔ ∃ u, o = .next u ∧ u.toCoreState = t := by
  cases o <;> simp [coreOutcome]

/-- A CORE part that faults belongs to the same fault. -/
theorem coreOutcome_eq_fault {o : Outcome} {f : Fault} : coreOutcome o = .fault f ↔ o = .fault f := by
  cases o <;> simp [coreOutcome]

/-- A CORE part that is refused belongs to the same refusal. -/
theorem coreOutcome_eq_refused {o : Outcome} {r : Refusal} : coreOutcome o = .refused r ↔ o = .refused r := by
  cases o <;> simp [coreOutcome]

/-- What each kind of work says of the state (R218). -/
theorem nextWork_cases (s : CoreState) :
    (∃ r, s.fault = some r ∧ s.nextWork = .frozen r) ∨
    (s.fault = none ∧ s.wait = true ∧ s.nextWork = .keyWait) ∨
    (s.fault = none ∧ s.wait = false ∧ ∃ a, s.fetchWord = .error a ∧ s.nextWork = .fetchFault a) ∨
    (s.fault = none ∧ s.wait = false ∧ ∃ op, s.fetchWord = .ok op ∧
      ((∃ r, decodeWord op = .error r ∧ s.nextWork = .unknown op) ∨
       (∃ i, decodeWord op = .ok i ∧ s.nextWork = .run i))) := by
  cases hf : s.fault with
  | some r => exact .inl ⟨r, rfl, by rw [CoreState.nextWork, hf]⟩
  | none =>
    right
    cases hw : s.wait with
    | true => exact .inl ⟨rfl, rfl, by simp [CoreState.nextWork, hf, hw]⟩
    | false =>
      right
      have hn : s.nextWork = workOfFetch (s.fetchWord) := by simp [CoreState.nextWork, hf, hw]
      cases he : s.fetchWord with
      | error a => exact .inl ⟨rfl, rfl, a, rfl, by rw [hn, he]; rfl⟩
      | ok op =>
        refine .inr ⟨rfl, rfl, op, rfl, ?_⟩
        cases hd : decodeWord op with
        | error r => exact .inl ⟨r, rfl, by rw [hn, he, workOfFetch, hd]⟩
        | ok i => exact .inr ⟨i, rfl, by rw [hn, he, workOfFetch, hd]⟩

/-- The two cases of the key-wait pass (R173). -/
theorem keyWaitPass_cases (s : CoreState) :
    (s.latch = none ∧ keyWaitPass s = s) ∨
    (∃ k, s.latch = some k ∧ keyWaitPass s =
      { (s.setV s.waitReg (BitVec.ofNat 8 k.val)).advance with wait := false, latch := none }) := by
  rw [keyWaitPass]
  cases h : s.latch with
  | none => exact .inl ⟨rfl, rfl⟩
  | some k => exact .inr ⟨k, rfl, rfl⟩

end Sys2Proof.Laws
end

