-- ==== Sys2Proof/Laws/Exec.lean ====
section
/-! SUPPORT. What an execute phase can answer and what it leaves alone, said once for all 35 instructions;
the claims about whole steps cite these and unfold no meaning. -/

namespace Sys2Proof.Laws

open Sys2Proof.Machine

/-- Which instructions an execute phase that goes on may have run, from what it changed: the keys and FAULT
by none, each other part by the instructions named. -/
structure NamedWriters (i : Instr) (s t : CoreState) : Prop where
  key : t.key = s.key
  fault : t.fault = s.fault
  dt : t.dt ≠ s.dt → ∃ x, i = .ldDT x
  st : t.st ≠ s.st → ∃ x, i = .ldST x
  fb : t.fb ≠ s.fb → i = .cls ∨ ∃ x y n, i = .drw x y n
  mem : t.mem ≠ s.mem → (∃ x, i = .ldB x) ∨ ∃ x, i = .store x
  idx : t.idx ≠ s.idx → (∃ nnn, i = .ldI nnn) ∨ (∃ x, i = .addI x) ∨ ∃ x, i = .ldF x
  wait : t.wait ≠ s.wait ∨ t.latch ≠ s.latch ∨ t.waitReg ≠ s.waitReg → ∃ x, i = .ldKey x
  stack : t.sp ≠ s.sp ∨ t.stack ≠ s.stack → (∃ nnn, i = .call nnn) ∨ i = .ret

/-- Every meaning that goes on keeps to its named writers. -/
theorem exec_next_keeps {i : Instr} {s t : State} (h : exec i s = .next t) :
    NamedWriters i s.toCoreState t.toCoreState := by
  cases i
  case ret =>
    simp only [exec, execRet, State.goOn_eq_next] at h
    rcases popCall_cases s.toCoreState with ⟨-, e⟩ | ⟨j, p, -, -, e⟩ <;> rw [e] at h <;>
      constructor <;> simp [h]
  case call nnn =>
    simp only [exec, execCall, State.goOn_eq_next] at h
    rcases pushCall_cases (addrOf nnn) s.toCoreState with ⟨-, e⟩ | ⟨j, p, -, -, e⟩ <;> rw [e] at h <;>
      constructor <;> simp [h]
  case load x =>
    simp only [exec, execLoad, withAccess_eq_next] at h
    obtain ⟨a, -, h, -⟩ := h
    simp only [h]
    rw [setRegsFrom_eq]
    constructor <;> simp
  case drw | ldB | store =>
    simp only [exec, execDrw, execLdB, execStore, withAccess_eq_next] at h
    obtain ⟨a, -, h, -⟩ := h
    constructor <;> simp [h, drawSprite]
  case skp x =>
    rcases skipOnKey_cases (.skp x) x true s with ⟨k, -, e⟩ | ⟨-, e⟩
    · simp only [exec, execSkp, e, State.goOn_eq_next, skipIf_eq] at h; constructor <;> simp [h]
    · simp [exec, execSkp, e, raiseKeyIndex] at h
  case sknp x =>
    rcases skipOnKey_cases (.sknp x) x false s with ⟨k, -, e⟩ | ⟨-, e⟩
    · simp only [exec, execSknp, e, State.goOn_eq_next, skipIf_eq] at h; constructor <;> simp [h]
    · simp [exec, execSknp, e, raiseKeyIndex] at h
  all_goals
    simp only [exec, execCls, execSys, execJp, execSeImm, execSneImm, execSeReg, execSneReg, execJpV0,
      execLdImm, execAddImm, execLdI, execRnd, execRndWith, execLdReg, execOrReg, execAndReg, execXorReg,
      execAddReg, execSub, execShr, execSubn, execShl, execLdKey, execLdFromDT, execLdDT, execLdST, execAddI,
      execLdF, State.goOn_eq_next] at h
    constructor <;> simp [h, skipIf_eq, CoreState.setFlagThenResult]

/-- The same of the CORE's execute phase. -/
theorem executeWith_next_keeps {rnd : Byte} {i : Instr} {s t : CoreState}
    (h : s.executeWith rnd i = .next t) : NamedWriters i s t := by
  by_cases hr : ∃ x kk, i = .rnd x kk
  · obtain ⟨x, kk, rfl⟩ := hr
    cases h
    constructor <;> simp [execRndWith]
  · rw [executeWith_eq_exec rnd i s 0 (by simpa using hr), coreOutcome_eq_next] at h
    obtain ⟨u, hu, rfl⟩ := h
    exact exec_next_keeps hu

/-- A memory that an execute phase leaves is canonical when the one it found was. -/
theorem exec_next_wf {i : Instr} {s t : State} (hw : Memory.wf s.mem = true)
    (h : exec i s = .next t) : Memory.wf t.mem = true := by
  by_cases hm : t.mem = s.mem
  · rw [hm]; exact hw
  · rcases (exec_next_keeps h).mem hm with ⟨x, rfl⟩ | ⟨x, rfl⟩
    · simp only [exec, execLdB, withAccess_eq_next] at h
      obtain ⟨m, hm, h, -⟩ := h
      rw [h]; exact writeChecked_wf hw hm
    · simp only [exec, execStore, withAccess_eq_next] at h
      obtain ⟨m, hm, h, -⟩ := h
      rw [h]; exact writeChecked_wf hw hm

/-- The same of the CORE's execute phase. -/
theorem executeWith_next_wf {rnd : Byte} {i : Instr} {s t : CoreState} (hw : Memory.wf s.mem = true)
    (h : s.executeWith rnd i = .next t) : Memory.wf t.mem = true := by
  by_cases hr : ∃ x kk, i = .rnd x kk
  · obtain ⟨x, kk, rfl⟩ := hr
    cases h
    exact hw
  · rw [executeWith_eq_exec rnd i s 0 (by simpa using hr), coreOutcome_eq_next] at h
    obtain ⟨u, hu, rfl⟩ := h
    exact exec_next_wf (s := ⟨s, 0⟩) hw hu

/-- No meaning refuses: an execute phase goes on or faults. -/
theorem exec_not_refused (i : Instr) (s : State) (r) : exec i s ≠ .refused r := by
  cases i <;> simp [exec, execCls, execSys, execJp, execSeImm, execSneImm, execSeReg, execSneReg, execJpV0,
      execLdImm, execAddImm, execLdI, execRnd, execRndWith, execLdReg, execOrReg, execAndReg, execXorReg,
      execAddReg, execSub, execShr, execSubn, execShl, execLdKey, execLdFromDT, execLdDT, execLdST, execAddI,
      execLdF, execRet, execCall, execDrw, execLdB, execStore, execLoad, execSkp, execSknp, withAccess,
      skipOnKey, raiseAddress, raiseKeyIndex, State.goOn] <;> split <;> simp

/-- An instruction whose meaning goes on with the CORE state `t` completes in `t`. -/
theorem completes_of_goOn {w : Word} {i : Instr} {s t : CoreState} {d : Diag} {P : CoreState → Prop}
    (hw : decodeWord w = .ok i) (hd : reported i s = d)
    (he : ∀ n, exec i { toCoreState := s, draws := n } =
      State.goOn { toCoreState := s, draws := n } t) (hp : P t) : Completes w i s d P :=
  ⟨hw, hd, t, he, hp⟩

end Sys2Proof.Laws
end

