-- ==== Sys2Proof/Laws/Commands.lean ====
section
/-! SUPPORT. The inversion lemma of one host command, and what each command but `step` can change. -/

namespace Sys2Proof.Laws

open Sys2Proof.Machine

/-- Everything a command can leave (R216, R230): nothing changed, the next state of a step, the fault of a
step recorded, or the effect of one of the four commands that are not steps. -/
theorem afterCommand_cases (c : Command) (s : CoreState) :
    afterCommand c s = s ∨
    (∃ rnd t, c = .step rnd ∧ s.stepWith rnd = .next t ∧ afterCommand c s = t) ∨
    (∃ rnd f, c = .step rnd ∧ s.stepWith rnd = .fault f ∧ afterCommand c s = s.recordFault f) ∨
    (∃ rom, c = .load rom ∧ afterCommand c s = (loadRom rom s).1) ∨
    (c = .tickTimers ∧ afterCommand c s = tickTimers s) ∨
    (∃ k p, c = .setInput k p ∧ afterCommand c s = setInput k p s) ∨
    (∃ levels, c = .setInputs levels ∧ afterCommand c s = setInputs levels s) := by
  cases hf : s.fault with
  | some r => left; cases c <;> simp [afterCommand, command, whileRunning, hf]
  | none =>
    cases c with
    | step rnd =>
      cases h : s.stepWith rnd <;> simp [afterCommand, command, whileRunning, hf, commandStep, h]
    | setInput k p =>
      refine .inr (.inr (.inr (.inr (.inr (.inl ⟨k, p, rfl, ?_⟩)))))
      simp [afterCommand, command, whileRunning, hf]
    | load rom | tickTimers | setInputs levels =>
      right; simp [afterCommand, command, whileRunning, hf]
    | framebufferSnapshot | isSoundActive => left; rfl

/-- set_input changes the latch and one key alone (R174, R233). -/
theorem setInput_eq (k : KeyIdx) (p : Bool) (s : CoreState) :
    setInput k p s = { s with latch := (latchKey k p s).latch, key := s.key.set k.val p k.isLt } := by
  rcases latchKey_cases k p s with ⟨-, h⟩ | ⟨-, h⟩ <;> rw [setInput, h]

/-- set_inputs changes the latch and the keys alone (R234). -/
theorem foldl_setInput_eq (levels : Vector Bool 16) (ks : List KeyIdx) (s : CoreState) :
    ks.foldl (fun t k => setInput k (levels.get k) t) s =
      { s with
        latch := (ks.foldl (fun t k => setInput k (levels.get k) t) s).latch
        key := (ks.foldl (fun t k => setInput k (levels.get k) t) s).key } := by
  induction ks generalizing s with
  | nil => rfl
  | cons k ks ih =>
    rw [List.foldl_cons, ih, setInput_eq]

theorem setInputs_eq (levels : Vector Bool 16) (s : CoreState) :
    setInputs levels s =
      { s with latch := (setInputs levels s).latch, key := (setInputs levels s).key } :=
  foldl_setInput_eq levels allKeys s

/-- load changes memory alone (R256). -/
theorem loadRom_eq (rom : List Byte) (s : CoreState) :
    (loadRom rom s).1 = { s with mem := (loadRom rom s).1.mem } := by
  rw [loadRom]; split <;> rfl

/-- load keeps the canonical form of memory. -/
theorem loadRom_wf {rom : List Byte} {s : CoreState} (h : Memory.wf s.mem = true) :
    Memory.wf (loadRom rom s).1.mem = true := by
  rw [loadRom]
  split
  · exact h
  · next hr => exact writeAll_wf h (by simp only [Config.romMax, Config.memSize, Config.progBase] at *; omega)

end Sys2Proof.Laws
end

