-- ==== Sys2Proof/Laws/PerInstr.lean ====
section
/-! SUPPORT. Statements made once per instruction of the opcode table. TableRow: the opcode of the
instruction has the bits its row of spec/opcode_table.json fixes. -/

namespace Sys2Proof.Laws.TableRow

/-- The "mask" column of the instruction's row. -/
def mask : Instr → Word
  | .cls | .ret => 0xFFFF#16
  | .sys _ | .jp _ | .call _ | .seImm _ _ | .sneImm _ _ | .ldImm _ _ | .addImm _ _ | .ldI _
  | .jpV0 _ | .rnd _ _ | .drw _ _ _ => 0xF000#16
  | .seReg _ _ | .sneReg _ _ | .ldReg _ _ | .orReg _ _ | .andReg _ _ | .xorReg _ _ | .addReg _ _
  | .sub _ _ | .shr _ _ | .subn _ _ | .shl _ _ => 0xF00F#16
  | .skp _ | .sknp _ | .ldFromDT _ | .ldKey _ | .ldDT _ | .ldST _ | .addI _ | .ldF _ | .ldB _
  | .store _ | .load _ => 0xF0FF#16

/-- The "match" column of the instruction's row. -/
def fixedBits : Instr → Word
  | .cls => 0x00E0#16
  | .ret => 0x00EE#16
  | .sys _ => 0x0000#16
  | .jp _ => 0x1000#16
  | .call _ => 0x2000#16
  | .seImm _ _ => 0x3000#16
  | .sneImm _ _ => 0x4000#16
  | .seReg _ _ => 0x5000#16
  | .ldImm _ _ => 0x6000#16
  | .addImm _ _ => 0x7000#16
  | .ldReg _ _ => 0x8000#16
  | .orReg _ _ => 0x8001#16
  | .andReg _ _ => 0x8002#16
  | .xorReg _ _ => 0x8003#16
  | .addReg _ _ => 0x8004#16
  | .sub _ _ => 0x8005#16
  | .shr _ _ => 0x8006#16
  | .subn _ _ => 0x8007#16
  | .shl _ _ => 0x800E#16
  | .sneReg _ _ => 0x9000#16
  | .ldI _ => 0xA000#16
  | .jpV0 _ => 0xB000#16
  | .rnd _ _ => 0xC000#16
  | .drw _ _ _ => 0xD000#16
  | .skp _ => 0xE09E#16
  | .sknp _ => 0xE0A1#16
  | .ldFromDT _ => 0xF007#16
  | .ldKey _ => 0xF00A#16
  | .ldDT _ => 0xF015#16
  | .ldST _ => 0xF018#16
  | .addI _ => 0xF01E#16
  | .ldF _ => 0xF029#16
  | .ldB _ => 0xF033#16
  | .store _ => 0xF055#16
  | .load _ => 0xF065#16

/-- The opcode has the bits its row fixes. -/
def Statement (i : Instr) : Prop := encode i &&& mask i = fixedBits i

theorem opNNN_fixed (f : BitVec 4) (nnn : BitVec 12) :
    opNNN f nnn &&& 0xF000#16 = opNNN f 0#12 :=
  BitVec.eq_of_getLsbD_eq fun i hi => by
    have h : ∀ i < 16, (0xF000#16).getLsbD i = decide (12 ≤ i) := by decide
    rw [BitVec.getLsbD_and, h i hi, getLsbD_opNNN, getLsbD_opNNN]
    by_cases h12 : i < 12
    · simp [h12]
    · simp [h12, show 12 ≤ i by omega]

theorem opXKK_fixed (f : BitVec 4) (x : RegIdx) (kk : BitVec 8) :
    opXKK f x kk &&& 0xF000#16 = opNNN f 0#12 :=
  BitVec.eq_of_getLsbD_eq fun i hi => by
    have h : ∀ i < 16, (0xF000#16).getLsbD i = decide (12 ≤ i) := by decide
    rw [BitVec.getLsbD_and, h i hi, getLsbD_opXKK, getLsbD_opNNN]
    by_cases h12 : i < 12
    · simp [h12]
    · simp [h12, show ¬ i < 8 by omega, show 12 ≤ i by omega]

theorem opXYN_fixed (f : BitVec 4) (x y : RegIdx) (n : BitVec 4) :
    opXYN f x y n &&& 0xF000#16 = opNNN f 0#12 :=
  BitVec.eq_of_getLsbD_eq fun i hi => by
    have h : ∀ i < 16, (0xF000#16).getLsbD i = decide (12 ≤ i) := by decide
    rw [BitVec.getLsbD_and, h i hi, getLsbD_opXYN, getLsbD_opNNN]
    by_cases h12 : i < 12
    · simp [h12]
    · simp [h12, show ¬ i < 4 by omega, show ¬ i < 8 by omega, show 12 ≤ i by omega]

theorem opXYN_sub_fixed (f : BitVec 4) (x y : RegIdx) (n : BitVec 4) :
    opXYN f x y n &&& 0xF00F#16 = opXYN f 0 0 n :=
  BitVec.eq_of_getLsbD_eq fun i hi => by
    have h : ∀ i < 16, (0xF00F#16).getLsbD i = (decide (i < 4) || decide (12 ≤ i)) := by decide
    rw [BitVec.getLsbD_and, h i hi, getLsbD_opXYN, getLsbD_opXYN]
    by_cases h4 : i < 4
    · simp [h4]
    · by_cases h12 : i < 12
      · simp [h4, h12, regBits]
      · simp [h4, h12, show ¬ i < 8 by omega, show 12 ≤ i by omega]

theorem opXKK_sub_fixed (f : BitVec 4) (x : RegIdx) (kk : BitVec 8) :
    opXKK f x kk &&& 0xF0FF#16 = opXKK f 0 kk :=
  BitVec.eq_of_getLsbD_eq fun i hi => by
    have h : ∀ i < 16, (0xF0FF#16).getLsbD i = (decide (i < 8) || decide (12 ≤ i)) := by decide
    rw [BitVec.getLsbD_and, h i hi, getLsbD_opXKK, getLsbD_opXKK]
    by_cases h8 : i < 8
    · simp [h8]
    · by_cases h12 : i < 12
      · simp [h8, h12, regBits]
      · simp [h8, h12, show 12 ≤ i by omega]

theorem cls : Statement .cls := by unfold Statement; decide
theorem ret : Statement .ret := by unfold Statement; decide
theorem sys (nnn : BitVec 12) : Statement (.sys nnn) := opNNN_fixed 0x0#4 nnn
theorem jp (nnn : BitVec 12) : Statement (.jp nnn) := opNNN_fixed 0x1#4 nnn
theorem call (nnn : BitVec 12) : Statement (.call nnn) := opNNN_fixed 0x2#4 nnn
theorem seImm (x : RegIdx) (kk : BitVec 8) : Statement (.seImm x kk) := opXKK_fixed 0x3#4 x kk
theorem sneImm (x : RegIdx) (kk : BitVec 8) : Statement (.sneImm x kk) := opXKK_fixed 0x4#4 x kk
theorem seReg (x y : RegIdx) : Statement (.seReg x y) := opXYN_sub_fixed 0x5#4 x y 0x0#4
theorem ldImm (x : RegIdx) (kk : BitVec 8) : Statement (.ldImm x kk) := opXKK_fixed 0x6#4 x kk
theorem addImm (x : RegIdx) (kk : BitVec 8) : Statement (.addImm x kk) := opXKK_fixed 0x7#4 x kk
theorem ldReg (x y : RegIdx) : Statement (.ldReg x y) := opXYN_sub_fixed 0x8#4 x y 0x0#4
theorem orReg (x y : RegIdx) : Statement (.orReg x y) := opXYN_sub_fixed 0x8#4 x y 0x1#4
theorem andReg (x y : RegIdx) : Statement (.andReg x y) := opXYN_sub_fixed 0x8#4 x y 0x2#4
theorem xorReg (x y : RegIdx) : Statement (.xorReg x y) := opXYN_sub_fixed 0x8#4 x y 0x3#4
theorem addReg (x y : RegIdx) : Statement (.addReg x y) := opXYN_sub_fixed 0x8#4 x y 0x4#4
theorem sub (x y : RegIdx) : Statement (.sub x y) := opXYN_sub_fixed 0x8#4 x y 0x5#4
theorem shr (x y : RegIdx) : Statement (.shr x y) := opXYN_sub_fixed 0x8#4 x y 0x6#4
theorem subn (x y : RegIdx) : Statement (.subn x y) := opXYN_sub_fixed 0x8#4 x y 0x7#4
theorem shl (x y : RegIdx) : Statement (.shl x y) := opXYN_sub_fixed 0x8#4 x y 0xE#4
theorem sneReg (x y : RegIdx) : Statement (.sneReg x y) := opXYN_sub_fixed 0x9#4 x y 0x0#4
theorem ldI (nnn : BitVec 12) : Statement (.ldI nnn) := opNNN_fixed 0xA#4 nnn
theorem jpV0 (nnn : BitVec 12) : Statement (.jpV0 nnn) := opNNN_fixed 0xB#4 nnn
theorem rnd (x : RegIdx) (kk : BitVec 8) : Statement (.rnd x kk) := opXKK_fixed 0xC#4 x kk
theorem drw (x y : RegIdx) (n : Fin 16) : Statement (.drw x y n) :=
  opXYN_fixed 0xD#4 x y (BitVec.ofFin n)
theorem skp (x : RegIdx) : Statement (.skp x) := opXKK_sub_fixed 0xE#4 x 0x9E#8
theorem sknp (x : RegIdx) : Statement (.sknp x) := opXKK_sub_fixed 0xE#4 x 0xA1#8
theorem ldFromDT (x : RegIdx) : Statement (.ldFromDT x) := opXKK_sub_fixed 0xF#4 x 0x07#8
theorem ldKey (x : RegIdx) : Statement (.ldKey x) := opXKK_sub_fixed 0xF#4 x 0x0A#8
theorem ldDT (x : RegIdx) : Statement (.ldDT x) := opXKK_sub_fixed 0xF#4 x 0x15#8
theorem ldST (x : RegIdx) : Statement (.ldST x) := opXKK_sub_fixed 0xF#4 x 0x18#8
theorem addI (x : RegIdx) : Statement (.addI x) := opXKK_sub_fixed 0xF#4 x 0x1E#8
theorem ldF (x : RegIdx) : Statement (.ldF x) := opXKK_sub_fixed 0xF#4 x 0x29#8
theorem ldB (x : RegIdx) : Statement (.ldB x) := opXKK_sub_fixed 0xF#4 x 0x33#8
theorem store (x : RegIdx) : Statement (.store x) := opXKK_sub_fixed 0xF#4 x 0x55#8
theorem load (x : RegIdx) : Statement (.load x) := opXKK_sub_fixed 0xF#4 x 0x65#8

end Sys2Proof.Laws.TableRow
end

