-- ==== Sys2Proof/Tests/Slice0.lean ====
section
/-! SUPPORT. The model's own tests. Every expected result comes from spec/95_test_vectors.md (the vector
is named in each docstring) or from the "encoding" column of spec/opcode_table.json. The last section
shows, for each statement with hypotheses, concrete values that meet them together. -/

namespace Sys2Proof.Tests

open Sys2Proof Sys2Proof.Machine

/-! ## Helpers -/

/-- The CORE in the state `s`, no random byte drawn yet. -/
def start (s : CoreState) : State := { toCoreState := s, draws := 0 }

/-- `start s` with the opcode `w` where the next step fetches. -/
def ready (w : Nat) (s : CoreState) : State := (start s).withFetchWord 16 w

/-- The outcome is a next state with the property. -/
def after {σ : Type} (o : Host.Outcome σ Fault Refusal) (p : σ → Bool) : Bool :=
  match o with
  | .next t => p t
  | .fault _ | .refused _ => false

/-- The outcome is this fault. -/
def faults (o : Outcome) (f : Fault) : Bool :=
  match o with
  | .fault g => decide (g = f)
  | .next _ | .refused _ => false

/-- One step from `s` with the opcode `w` at PC. -/
def run (w : Nat) (s : CoreState) (p : State → Bool) : Bool := after (step (ready w s)) p

/-- The reset state with V0 and V1 set. -/
def v01 (a b : Byte) : CoreState := (CoreState.reset.setV 0 a).setV 1 b

/-- The reset state with I set and some bytes stored from there. -/
def atI (i : Word) (bs : List Byte) : CoreState :=
  (CoreState.reset.setI i).setMem (Memory.writeAll [] i.toNat bs)

/-- The reset state in a key wait of the F30A at PC, with a latch. -/
def waiting (l : Option KeyIdx) : CoreState :=
  { (ready 0xF30A CoreState.reset).toCoreState with wait := true, waitReg := 3, latch := l }

/-- The reset state with SP set and 0x202 in every slot. -/
def depth (n : Fin 17) : CoreState := { CoreState.reset with sp := n, stack := Vector.replicate 16 0x202#16 }

/-! ## WellFormed: one ill-formed term for each check -/

theorem test_wf_refuses_sys_cls : (Instr.sys 0x0E0#12).wf = false := by decide
theorem test_wf_refuses_sys_ret : (Instr.sys 0x0EE#12).wf = false := by decide
theorem test_wf_accepts_neighbours :
    (Instr.sys 0x0E1#12).wf = true ∧ (Instr.sys 0x0ED#12).wf = true ∧ Instr.cls.wf = true := by decide

/-! ## Decode: one word of every constructor, written from the "encoding" column -/

theorem test_decode_family_0 :
    decodeWord 0b0000000011100000#16 = .ok .cls ∧
    decodeWord 0b0000000011101110#16 = .ok .ret ∧
    decodeWord 0b0000000100100011#16 = .ok (.sys 0x123#12) := by decide

theorem test_decode_jumps :
    decodeWord 0b0001001000000100#16 = .ok (.jp 0x204#12) ∧
    decodeWord 0b0010001100000000#16 = .ok (.call 0x300#12) ∧
    decodeWord 0b1011010100000000#16 = .ok (.jpV0 0x500#12) := by decide

theorem test_decode_skips :
    decodeWord 0b0011001101000010#16 = .ok (.seImm 3 0x42#8) ∧
    decodeWord 0b0100001101000010#16 = .ok (.sneImm 3 0x42#8) ∧
    decodeWord 0b0101000100100000#16 = .ok (.seReg 1 2) ∧
    decodeWord 0b1001000100100000#16 = .ok (.sneReg 1 2) := by decide

theorem test_decode_immediates :
    decodeWord 0b0110111110101011#16 = .ok (.ldImm 0xF 0xAB#8) ∧
    decodeWord 0b0111001000000011#16 = .ok (.addImm 2 0x03#8) ∧
    decodeWord 0b1010001011110000#16 = .ok (.ldI 0x2F0#12) ∧
    decodeWord 0b1100001100001111#16 = .ok (.rnd 3 0x0F#8) := by decide

theorem test_decode_alu :
    decodeWord 0b1000000100100000#16 = .ok (.ldReg 1 2) ∧
    decodeWord 0b1000000100100001#16 = .ok (.orReg 1 2) ∧
    decodeWord 0b1000000100100010#16 = .ok (.andReg 1 2) ∧
    decodeWord 0b1000000100100011#16 = .ok (.xorReg 1 2) ∧
    decodeWord 0b1000000100100100#16 = .ok (.addReg 1 2) ∧
    decodeWord 0b1000000100100101#16 = .ok (.sub 1 2) ∧
    decodeWord 0b1000000100100110#16 = .ok (.shr 1 2) ∧
    decodeWord 0b1000000100100111#16 = .ok (.subn 1 2) ∧
    decodeWord 0b1000000100101110#16 = .ok (.shl 1 2) := by decide

theorem test_decode_draw_and_keys :
    decodeWord 0b1101101111000101#16 = .ok (.drw 0xB 0xC 5) ∧
    decodeWord 0b1110010110011110#16 = .ok (.skp 5) ∧
    decodeWord 0b1110010110100001#16 = .ok (.sknp 5) := by decide

theorem test_decode_family_F :
    decodeWord 0b1111001000000111#16 = .ok (.ldFromDT 2) ∧
    decodeWord 0b1111001100001010#16 = .ok (.ldKey 3) ∧
    decodeWord 0b1111001000010101#16 = .ok (.ldDT 2) ∧
    decodeWord 0b1111000100011000#16 = .ok (.ldST 1) ∧
    decodeWord 0b1111010000011110#16 = .ok (.addI 4) ∧
    decodeWord 0b1111101000101001#16 = .ok (.ldF 0xA) ∧
    decodeWord 0b1111000000110011#16 = .ok (.ldB 0) ∧
    decodeWord 0b1111001001010101#16 = .ok (.store 2) ∧
    decodeWord 0b1111001001100101#16 = .ok (.load 2) := by decide

/-- V-CYC-06 to V-CYC-11. -/
theorem test_decode_unknown :
    decodeWord 0x8018#16 = .error (.unknownOpcode 0x8018#16) ∧
    decodeWord 0x5121#16 = .error (.unknownOpcode 0x5121#16) ∧
    decodeWord 0x912F#16 = .error (.unknownOpcode 0x912F#16) ∧
    decodeWord 0xE09F#16 = .error (.unknownOpcode 0xE09F#16) ∧
    decodeWord 0xF0FF#16 = .error (.unknownOpcode 0xF0FF#16) ∧
    decode [0x60#8] = .error .truncated := by decide

/-! ## The cycle -/

/-- V-CYC-02 and V-CYC-06. -/
theorem test_noop_and_unknown :
    run 0x0123 CoreState.reset (fun t => t.pc == 0x202#16) = true ∧
    (ready 0x0123 CoreState.reset).stepDiag = .none ∧
    run 0x8018 CoreState.reset (fun t => t.pc == 0x202#16) = true ∧
    (ready 0x8018 CoreState.reset).stepDiag = .unknownOpcode := by decide

/-- V-CYC-12: an odd PC. -/
theorem test_fetch_odd_pc :
    run 0x6012 (CoreState.reset.setPC 0x201#16) (fun t => t.getV 0 == 0x12#8 && t.pc == 0x203#16) = true := by
  decide

/-- V-CYC-14, V-CYC-15 and V-CYC-16. -/
theorem test_fetch_faults :
    faults (step (start (CoreState.reset.setPC 0xFFF#16))) (.addressFault 0x1000 0xFFF#16 none) = true ∧
    faults (step (start (CoreState.reset.setPC 0x1000#16))) (.addressFault 0x1000 0x1000#16 none) = true ∧
    faults (step (start (CoreState.reset.setPC 0x10FE#16))) (.addressFault 0x10FE 0x10FE#16 none) = true := by decide

/-! ## Display -/

/-- V-DSP-01: the screen clears, VF stays. -/
theorem test_cls :
    run 0x00E0 ((CoreState.reset.setV 0xF 1#8).setFB (setPixel (setPixel blankScreen 5 5 true) 63 31 true))
      (fun t => !pixel t.fb 5 5 && !pixel t.fb 63 31 && t.getV 0xF == 1#8 && t.pc == 0x202#16) = true := by
  decide

/-- V-DSP-04: one pixel collides, its neighbour lights. -/
theorem test_drw_collides :
    run 0xD011 ((atI 0x300#16 [0xC0#8]).setFB (setPixel blankScreen 0 0 true))
      (fun t => !pixel t.fb 0 0 && pixel t.fb 1 0 && !pixel t.fb 2 0 && t.getV 0xF == 1#8) = true := by
  decide

/-- V-DSP-05 and V-DSP-07: bit 0 is column x0 + 7, and both coordinates wrap. -/
theorem test_drw_orders_and_wraps :
    run 0xD011 (atI 0x300#16 [0x01#8])
      (fun t => pixel t.fb 7 0 && !pixel t.fb 0 0 && t.getV 0xF == 0#8) = true ∧
    run 0xD011 (((atI 0x300#16 [0x80#8]).setV 0 0xFF#8).setV 1 0xFF#8)
      (fun t => pixel t.fb 63 31 && t.getV 0xF == 0#8) = true := by
  decide

/-! ## Control transfer -/

/-- V-CF-01 and V-CF-02. -/
theorem test_ret :
    run 0x00EE CoreState.reset (fun t => t.pc == 0x202#16 && t.sp == 0) = true ∧
    (ready 0x00EE CoreState.reset).stepDiag = .stackUnderflow ∧
    run 0x00EE ((depth 1).setPC 0x300#16)
      (fun t => t.pc == 0x202#16 && t.sp == 0 && t.stack.get 0 == 0x202#16) = true := by decide

/-- V-CF-08 and V-CF-10. -/
theorem test_call :
    run 0x2300 CoreState.reset (fun t => t.pc == 0x300#16 && t.sp == 1 && t.stack.get 0 == 0x202#16) = true ∧
    run 0x2300 (depth 16) (fun t => t.pc == 0x202#16 && t.sp == 16) = true ∧
    (ready 0x2300 (depth 16)).stepDiag = .stackOverflow := by decide

/-- V-CF-04 and V-CF-06. -/
theorem test_jp :
    run 0x1204 CoreState.reset (fun t => t.pc == 0x204#16) = true ∧
    run 0x1201 CoreState.reset (fun t => t.pc == 0x201#16) = true := by decide

/-- V-CF-26 and V-CF-27: no truncation, and V0 whatever the nibble. -/
theorem test_jpV0 :
    run 0xBFFF (v01 0xFF#8 0#8) (fun t => t.pc == 0x10FE#16) = true ∧
    run 0xB500 (CoreState.reset.setV 5 0x10#8) (fun t => t.pc == 0x500#16) = true := by decide

/-- V-CF-12, V-CF-13, V-CF-17 and V-CF-18. -/
theorem test_skip_immediate :
    run 0x3342 (CoreState.reset.setV 3 0x42#8) (fun t => t.pc == 0x204#16) = true ∧
    run 0x3342 (CoreState.reset.setV 3 0x41#8) (fun t => t.pc == 0x202#16) = true ∧
    run 0x4342 (CoreState.reset.setV 3 0x41#8) (fun t => t.pc == 0x204#16) = true ∧
    run 0x4342 (CoreState.reset.setV 3 0x42#8) (fun t => t.pc == 0x202#16) = true := by decide

/-- V-CF-20, V-CF-21, V-CF-22 and V-CF-23. -/
theorem test_skip_register :
    run 0x5120 ((CoreState.reset.setV 1 7#8).setV 2 8#8) (fun t => t.pc == 0x202#16) = true ∧
    run 0x5110 (CoreState.reset.setV 1 7#8) (fun t => t.pc == 0x204#16) = true ∧
    run 0x9120 ((CoreState.reset.setV 1 7#8).setV 2 8#8) (fun t => t.pc == 0x204#16) = true ∧
    run 0x9110 (CoreState.reset.setV 1 7#8) (fun t => t.pc == 0x202#16) = true := by decide

/-! ## Immediate -/

/-- V-IMM-02 and V-IMM-03: no carry flag. -/
theorem test_immediate :
    run 0x6FAB (CoreState.reset.setV 0xF 1#8) (fun t => t.getV 0xF == 0xAB#8) = true ∧
    run 0x7203 (CoreState.reset.setV 2 0xFE#8) (fun t => t.getV 2 == 1#8 && t.getV 0xF == 0#8) = true := by decide

/-- V-IMM-07. -/
theorem test_ldI : run 0xA050 (CoreState.reset.setI 0xFFFF#16) (fun t => t.idx == 0x50#16) = true := by decide

/-- V-IMM-09, with RND = B7. -/
theorem test_rnd :
    after ((ready 0xC30F CoreState.reset).stepWith 0xB7#8) (fun t => t.getV 3 == 7#8) = true := by decide

/-! ## ALU -/

/-- V-ALU-01, V-ALU-03, V-ALU-04 and V-ALU-05: VF is not reset. -/
theorem test_move_and_logic :
    run 0x8010 (v01 0#8 0x3C#8) (fun t => t.getV 0 == 0x3C#8) = true ∧
    run 0x8011 ((v01 0xF0#8 0x0C#8).setV 0xF 1#8) (fun t => t.getV 0 == 0xFC#8 && t.getV 0xF == 1#8) = true ∧
    run 0x8012 ((v01 0xF0#8 0x3C#8).setV 0xF 1#8) (fun t => t.getV 0 == 0x30#8 && t.getV 0xF == 1#8) = true ∧
    run 0x8013 ((v01 0xF0#8 0x3C#8).setV 0xF 1#8) (fun t => t.getV 0 == 0xCC#8 && t.getV 0xF == 1#8) = true := by
  decide

/-- W1 (FF + 01) and V-ALU-07 (x = F: the result stays). -/
theorem test_addReg :
    run 0x8014 (v01 0xFF#8 1#8) (fun t => t.getV 0 == 0#8 && t.getV 0xF == 1#8) = true ∧
    run 0x8F14 ((v01 0#8 0xF5#8).setV 0xF 0x10#8) (fun t => t.getV 0xF == 5#8) = true := by decide

/-- W2 (03 - 05) and V-ALU-13 (y = F: the old VF is read). -/
theorem test_sub :
    run 0x8015 (v01 3#8 5#8) (fun t => t.getV 0 == 0xFE#8 && t.getV 0xF == 0#8) = true ∧
    run 0x80F5 ((v01 5#8 0#8).setV 0xF 5#8) (fun t => t.getV 0 == 0#8 && t.getV 0xF == 1#8) = true := by decide

/-- V-ALU-19 (Vy is not read) and V-ALU-21. -/
theorem test_shr :
    run 0x8016 (v01 5#8 0xFF#8) (fun t => t.getV 0 == 2#8 && t.getV 0xF == 1#8) = true ∧
    run 0x8F06 (CoreState.reset.setV 0xF 6#8) (fun t => t.getV 0xF == 3#8) = true := by decide

/-- V-ALU-22 and V-ALU-26. -/
theorem test_subn :
    run 0x8017 (v01 3#8 5#8) (fun t => t.getV 0 == 2#8 && t.getV 0xF == 1#8) = true ∧
    run 0x80F7 ((v01 6#8 0#8).setV 0xF 4#8) (fun t => t.getV 0 == 0xFE#8 && t.getV 0xF == 0#8) = true := by decide

/-- V-ALU-27 and V-ALU-31. -/
theorem test_shl :
    run 0x800E (v01 0x81#8 0#8) (fun t => t.getV 0 == 2#8 && t.getV 0xF == 1#8) = true ∧
    run 0x801E (v01 1#8 0x80#8) (fun t => t.getV 0 == 2#8 && t.getV 0xF == 0#8) = true := by decide

/-- V-ALU-19 and V-ALU-31 with SHIFT_SOURCE = Vy, which is not this hardware. -/
theorem test_shift_operand_vy :
    shiftOperand .vy 0 1 (v01 5#8 0xFF#8) = 0xFF#8 ∧ shiftOperand .vx 0 1 (v01 5#8 0xFF#8) = 5#8 := by decide

/-! ## Keypad -/

/-- V-KEY-01 to V-KEY-04. -/
theorem test_key_skips :
    run 0xE59E ((setInput 0xA true CoreState.reset).setV 5 0xA#8) (fun t => t.pc == 0x204#16) = true ∧
    run 0xE59E (CoreState.reset.setV 5 0xA#8) (fun t => t.pc == 0x202#16) = true ∧
    run 0xE5A1 (CoreState.reset.setV 5 0xA#8) (fun t => t.pc == 0x204#16) = true ∧
    run 0xE5A1 ((setInput 0xA true CoreState.reset).setV 5 0xA#8) (fun t => t.pc == 0x202#16) = true := by decide

/-- V-KEY-05 and V-KEY-06. -/
theorem test_key_faults :
    faults (step (ready 0xE59E (CoreState.reset.setV 5 0x10#8))) (.keyIndexFault 0x10#8 0x200#16 0xE59E#16) = true ∧
    faults (step (ready 0xE5A1 (CoreState.reset.setV 5 0xFF#8))) (.keyIndexFault 0xFF#8 0x200#16 0xE5A1#16) = true := by
  decide

/-- W9, commands 1 and 5. -/
theorem test_ldKey :
    run 0xF30A CoreState.reset (fun t => t.wait && t.waitReg == 3 && t.latch == none && t.pc == 0x200#16) = true ∧
    after (step (start (waiting (some 7))))
      (fun t => !t.wait && t.getV 3 == 7#8 && t.latch == none && t.pc == 0x202#16) = true := by decide

/-- V-KEY-11, V-KEY-12, V-KEY-14 and V-KEY-16. -/
theorem test_latch :
    (setInput 4 true (setInput 9 true (waiting none))).latch = some 9 ∧
    (setInputs (Vector.replicate 16 false |>.set 4 true |>.set 9 true) (waiting none)).latch = some 4 ∧
    (setInput 7 true CoreState.reset).latch = none ∧
    (setInput 7 false { waiting none with key := Vector.replicate 16 true }).latch = none := by decide

/-! ## Timers -/

/-- V-TMR-01, V-TMR-02 and V-TMR-04. -/
theorem test_timer_access :
    run 0xF207 (CoreState.reset.setDT 0x3C#8) (fun t => t.getV 2 == 0x3C#8 && t.dt == 0x3C#8) = true ∧
    run 0xF215 (CoreState.reset.setV 2 0x3C#8) (fun t => t.dt == 0x3C#8) = true ∧
    run 0xF118 (v01 0#8 2#8) (fun t => t.st == 2#8 && isSoundActive t.toCoreState) = true := by decide

/-- V-TMR-06, V-TMR-07 and V-TMR-08. -/
theorem test_tick :
    (tickTimers (CoreState.reset.setST 1#8)).st = 0#8 ∧ isSoundActive (tickTimers (CoreState.reset.setST 1#8)) = false ∧
    (tickTimers (CoreState.reset.setST 5#8)).st = 4#8 ∧ (tickTimers (CoreState.reset.setST 5#8)).dt = 0#8 ∧
    tickTimers CoreState.reset = CoreState.reset := ⟨rfl, rfl, rfl, rfl, rfl⟩

/-! ## Index and memory -/

/-- V-MEM-02 and V-MEM-08. -/
theorem test_index :
    run 0xF01E ((v01 1#8 0#8).setI 0xFFFF#16) (fun t => t.idx == 0#16 && t.getV 0xF == 0#8) = true ∧
    run 0xF029 (v01 0xFF#8 0#8) (fun t => t.idx == 0x54B#16) = true := by decide

/-- V-MEM-11 and V-MEM-14. -/
theorem test_ldB :
    run 0xF033 ((v01 0xFF#8 0#8).setI 0x300#16)
      (fun t => Memory.readAll t.mem 0x300 3 == [2#8, 5#8, 5#8] && t.idx == 0x300#16) = true ∧
    faults (step (ready 0xF033 (CoreState.reset.setI 0xFFE#16))) (.addressFault 0x1000 0x200#16 (some 0xF033#16)) = true := by
  decide

/-- V-MEM-16 and V-MEM-19. -/
theorem test_store :
    run 0xF255 (((v01 1#8 2#8).setV 2 3#8).setI 0x400#16)
      (fun t => Memory.readAll t.mem 0x400 4 == [1#8, 2#8, 3#8, 0#8] && t.idx == 0x400#16) = true ∧
    faults (step (ready 0xFF55 (CoreState.reset.setI 0xFF1#16))) (.addressFault 0x1000 0x200#16 (some 0xFF55#16)) = true := by
  decide

/-- V-MEM-20 and V-MEM-21 (the font bytes of glyphs 0 to 3). -/
theorem test_load :
    run 0xF265 ((atI 0x300#16 [1#8, 5#8, 6#8]).setV 3 0x77#8)
      (fun t => t.getV 0 == 1#8 && t.getV 1 == 5#8 && t.getV 2 == 6#8 && t.getV 3 == 0x77#8) = true ∧
    run 0xFF65 (CoreState.reset.setI 0x50#16)
      (fun t => t.getV 0 == 0xF0#8 && t.getV 1 == 0x90#8 && t.getV 5 == 0x20#8 && t.getV 0xF == 0xF0#8) = true := by
  decide

/-- Storing what an unlisted address reads as removes the cell, the font area included (R52). -/
theorem test_memory_canonical :
    Memory.write (Memory.write [] 0x300 5#8) 0x300 0#8 = [] ∧
    Memory.write (Memory.write [] 0x50 5#8) 0x50 0xF0#8 = [] ∧
    Memory.wf (Memory.write (Memory.write [] 0x300 5#8) 0x50 1#8) = true := by decide

/-! ## Commands -/

/-- V-RST-05: a load writes its own bytes alone. -/
theorem test_load_rom :
    Memory.readAll (loadRom [0x33#8] { CoreState.reset with
      mem := Memory.writeAll [] 0x200 [0x11#8, 0x11#8, 0x22#8, 0x22#8] }).1.mem 0x200 4 =
      [0x33#8, 0x11#8, 0x22#8, 0x22#8] := by decide

/-- V-MEM-14 as a host command: FAULT is set and nothing else changes; then V-CYC-17. -/
theorem test_fault_recorded :
    afterCommand (.step 0#8) (ready 0xF033 (CoreState.reset.setI 0xFFE#16)).toCoreState =
      { (ready 0xF033 (CoreState.reset.setI 0xFFE#16)).toCoreState with
        fault := some (.addressFault 0x1000 0x200#16 (some 0xF033#16)) } ∧
    afterCommand .tickTimers { CoreState.reset with dt := 5#8, fault := some (.addressFault 0x1000 0x1000#16 none) } =
      { CoreState.reset with dt := 5#8, fault := some (.addressFault 0x1000 0x1000#16 none) } :=
  ⟨rfl, rfl⟩

/-! ## Witnesses: values that meet each statement's hypotheses together -/

theorem witness_DecodeOfEncode : (Instr.sys 0x0E1#12).wf = true := by decide

theorem witness_EncodeOfDecode : decodeWord 0x5120#16 = .ok (.seReg 1 2) := by decide

/-- Family 0, family 8, family E and family F, next to a defined sub-opcode each. -/
theorem witness_SecondLevelFamilies :
    (0x0E1#12 ≠ 0x0E0#12 ∧ 0x0E1#12 ≠ 0x0EE#12) ∧
    0x8#4 ∈ [0x8#4, 0x9#4, 0xA#4, 0xB#4, 0xC#4, 0xD#4, 0xF#4] ∧ 0x9F#8 ∉ [0x9E#8, 0xA1#8] ∧
    0x06#8 ∉ [0x07#8, 0x0A#8, 0x15#8, 0x18#8, 0x1E#8, 0x29#8, 0x33#8, 0x55#8, 0x65#8] := by decide

/-- The last PC that can fetch. -/
theorem witness_StepRuns :
    (ready 0x00E0 (CoreState.reset.setPC 0xFFE#16)).fault = none ∧
    (ready 0x00E0 (CoreState.reset.setPC 0xFFE#16)).wait = false ∧
    (ready 0x00E0 (CoreState.reset.setPC 0xFFE#16)).pc.toNat + 1 ≤ 0xFFF ∧
    decodeWord (wordOfBytes ((ready 0x00E0 (CoreState.reset.setPC 0xFFE#16)).readByte 0xFFE)
      ((ready 0x00E0 (CoreState.reset.setPC 0xFFE#16)).readByte 0xFFF)) = .ok .cls := by decide

theorem witness_UnknownOpcode :
    (ready 0x8018 CoreState.reset).fault = none ∧ (ready 0x8018 CoreState.reset).wait = false ∧
    (ready 0x8018 CoreState.reset).pc.toNat + 1 ≤ 0xFFF ∧
    decodeWord (wordOfBytes ((ready 0x8018 CoreState.reset).readByte 0x200)
      ((ready 0x8018 CoreState.reset).readByte 0x201)) = .error (.unknownOpcode 0x8018#16) := by decide

theorem witness_FetchPastMemory :
    (CoreState.reset.setPC 0x1000#16).fault = none ∧ (CoreState.reset.setPC 0x1000#16).wait = false ∧
    (CoreState.reset.setPC 0x1000#16).pc.toNat > 0xFFF ∧ (CoreState.reset.setPC 0xFFF#16).pc.toNat = 0xFFF := by decide

theorem witness_KeyWaitPass :
    (waiting none).fault = none ∧ (waiting none).wait = true ∧ (waiting none).latch = none ∧
    (waiting (some 15)).fault = none ∧ (waiting (some 15)).wait = true ∧
    (waiting (some 15)).latch = some 15 := by decide

theorem witness_RunningMachine : CoreState.reset.fault = none := by decide

/-- A step that draws and one that does not. -/
theorem witness_StepDraws :
    (ready 0xC30F CoreState.reset).nextWork = .run (.rnd 3 0x0F#8) ∧ CoreState.reset.nextWork = .run (.sys 0) ∧
    after (step (ready 0xC30F CoreState.reset)) (fun t => t.draws == 1) = true ∧
    after (step State.reset) (fun t => t.draws == 0) = true := ⟨by decide, by decide, rfl, rfl⟩

/-- The kinds of work of R26's table whose PC is not simply two further, each on a step that goes on. -/
theorem witness_ProgramCounter :
    (waiting none).nextWork = .keyWait ∧ (ready 0x8018 CoreState.reset).nextWork = .unknown 0x8018#16 ∧
    (∀ p ∈ [(0x3342, Instr.seImm 3 0x42#8), (0x4342, .sneImm 3 0x42#8), (0x5120, .seReg 1 2),
        (0x9120, .sneReg 1 2), (0xE59E, .skp 5), (0xE5A1, .sknp 5), (0x1FFF, .jp 0xFFF#12),
        (0x2300, .call 0x300#12), (0x00EE, .ret), (0xBFFF, .jpV0 0xFFF#12), (0xF30A, .ldKey 3),
        (0x6005, .ldImm 0 5#8)],
      (ready p.1 CoreState.reset).nextWork = .run p.2 ∧ run p.1 CoreState.reset (fun _ => true) = true) := by decide

theorem witness_ProgramCounter_commands :
    (∀ rnd, Command.tickTimers ≠ .step rnd) ∧
    (∃ t, command (.step 0#8) (CoreState.reset.setPC 0xFFF#16) = .faulted t) :=
  ⟨by decide, _, rfl⟩

/-- Each change that the statement speaks of happens in some step. -/
theorem witness_TimersKeysScreen :
    run 0xF215 (CoreState.reset.setV 2 1#8) (fun t => t.dt != CoreState.reset.dt) = true ∧
    run 0xF218 (CoreState.reset.setV 2 1#8) (fun t => t.st != CoreState.reset.st) = true ∧
    run 0x00E0 (CoreState.reset.setFB (setPixel blankScreen 63 31 true)) (fun t => !pixel t.fb 63 31) = true ∧
    run 0xD011 (atI 0x50#16 []) (fun t => pixel t.fb 0 0) = true := by decide

/-- Commands under each guard: one that is no step, one that is not tick_timers either, and the two that
write no key. -/
theorem witness_TimersKeysScreen_commands :
    (∀ rnd, Command.tickTimers ≠ .step rnd) ∧ (∀ rnd, Command.load [0x12#8] ≠ .step rnd) ∧
    Command.load [0x12#8] ≠ .tickTimers ∧
    (∀ k p, Command.tickTimers ≠ .setInput k p) ∧ (∀ levels, Command.tickTimers ≠ .setInputs levels) ∧
    (∀ k p, Command.load [0x12#8] ≠ .setInput k p) ∧ (∀ levels, Command.load [0x12#8] ≠ .setInputs levels) := by
  refine ⟨?_, ?_, ?_, ?_, ?_, ?_, ?_⟩ <;> intros <;> intro h <;> cases h

/-- The last byte of each store changes. -/
theorem witness_OnlyTwoWriteMemory :
    Memory.wf (ready 0xF033 ((v01 7#8 0#8).setI 0xFFD#16)).mem = true ∧
    run 0xF033 ((v01 7#8 0#8).setI 0xFFD#16) (fun t => t.readByte 0xFFF != 0#8) = true ∧
    Memory.wf (ready 0xFF55 ((CoreState.reset.setV 0xF 7#8).setI 0xFF0#16)).mem = true ∧
    run 0xFF55 ((CoreState.reset.setV 0xF 7#8).setI 0xFF0#16) (fun t => t.readByte 0xFFF != 0#8) = true := by decide

/-- VF changes by a key wait, by a flag and by a register write. -/
theorem witness_FlagWriters :
    after (step (start { waiting (some 7) with waitReg := 0xF })) (fun t => t.getV 0xF != 0#8) = true ∧
    run 0x8014 (v01 0xFF#8 1#8) (fun t => t.getV 0xF != 0#8) = true ∧
    run 0x6FAB CoreState.reset (fun t => t.getV 0xF != 0#8) = true := by decide

/-- The deepest call and the shallowest return. -/
theorem witness_StackMoves :
    run 0x2300 (depth 15) (fun t => t.sp != 15 && t.stack.get 15 == 0x202#16) = true ∧
    run 0x2300 { depth 15 with stack := Vector.replicate 16 0#16 } (fun t => t.stack.get 15 != 0#16) = true ∧
    run 0x00EE (depth 1) (fun t => t.sp != 1) = true := by decide

theorem witness_IndexAndWait :
    run 0xA050 CoreState.reset (fun t => t.idx != 0#16) = true ∧
    run 0xF01E (v01 1#8 0#8) (fun t => t.idx != 0#16) = true ∧
    run 0xF029 CoreState.reset (fun t => t.idx != 0#16) = true ∧
    (ready 0xF30A CoreState.reset).wait = false ∧ run 0xF30A CoreState.reset (fun t => t.wait) = true ∧
    (waiting (some 0)).wait = true ∧ after (step (start (waiting (some 0)))) (fun t => !t.wait) = true := by decide

theorem witness_StepKeepsInvariant :
    (waiting (some 7)).Inv ∧ ∃ t, step (start (waiting (some 7))) = .next t :=
  ⟨⟨by decide, fun _ => rfl⟩, _, rfl⟩

theorem witness_CommandKeepsInvariant : (waiting (some 7)).Inv := ⟨by decide, fun _ => rfl⟩

theorem witness_KeyWaitStays :
    (waiting none).wait = true ∧ (waiting none).WaitsAtItsInstruction ∧
    (∃ t, step (start (waiting none)) = .next t) ∧ (∀ rom, Command.setInput 7 true ≠ .load rom) :=
  ⟨by decide, fun _ => by decide, ⟨_, rfl⟩, fun _ h => by cases h⟩

/-- A fetch fault, a data fault and a key fault. -/
theorem witness_FaultRecord :
    (CoreState.reset.setPC 0xFFF#16).stepWith 0#8 = .fault (.addressFault 0x1000 0xFFF#16 none) ∧
    (ready 0xF033 (CoreState.reset.setI 0xFFE#16)).stepWith 0#8 =
      .fault (.addressFault 0x1000 0x200#16 (some 0xF033#16)) ∧
    (ready 0xE59E (CoreState.reset.setV 5 0x10#8)).stepWith 0#8 =
      .fault (.keyIndexFault 0x10#8 0x200#16 0xE59E#16) := ⟨rfl, rfl, rfl⟩

theorem witness_FaultedMachine :
    ({ CoreState.reset with fault := some (.addressFault 0x1000 0x1000#16 none) } : CoreState).fault =
      some (.addressFault 0x1000 0x1000#16 none) ∧
    Command.step 0#8 ≠ .framebufferSnapshot ∧ Command.step 0#8 ≠ .isSoundActive := by decide

theorem witness_SafeRun : SafeRun ([Command.load [0x00#8, 0xE0#8]] ++ [Command.step 0#8]) CoreState.reset :=
  rfl

/-- n = 0 at any I, and the last byte of memory; a touched pixel that was on. -/
theorem witness_DrawInverts :
    ((0 : Fin 16).val = 0 ∨ (CoreState.reset.setI 0xFFFF#16).idx.toNat + (0 : Fin 16).val ≤ 0x1000) ∧
    ((1 : Fin 16).val = 0 ∨ (CoreState.reset.setI 0xFFF#16).idx.toNat + (1 : Fin 16).val ≤ 0x1000) ∧
    (((atI 0x300#16 [0x01#8]).readByte 0x300).getLsbD (7 - 7) = true ∧
      pixel (setPixel blankScreen 7 0 true) 7 0 = true) := by decide

/-- A first draw that lights a pixel, and one that lights none. -/
theorem witness_DrawTwice :
    (0 : RegIdx) ≠ 0xF ∧ (1 : RegIdx) ≠ 0xF ∧
    after (exec (.drw 0 1 1) (start (atI 0x300#16 [0x80#8]))) (fun t => pixel t.fb 0 0) = true ∧
    pixel (atI 0x300#16 [0x80#8]).fb 0 0 = false ∧
    ∃ t, exec (.drw 0 1 0) State.reset = .next t ∧ t.fb = State.reset.fb :=
  ⟨by decide, by decide, by decide, by decide, _, rfl, rfl⟩

/-- The two draws of the statement that is expected to fail. -/
theorem witness_SecondDraw :
    (0 : RegIdx) ≠ 0xF ∧ (1 : RegIdx) ≠ 0xF ∧
    (∃ t u, exec (.drw 0 1 1) (start (atI 0x300#16 [0x80#8])) = .next t ∧ exec (.drw 0 1 1) t = .next u) :=
  ⟨by decide, by decide, _, _, rfl, rfl⟩

/-- W4: columns 70 and 6, rows 34 and 2. -/
theorem witness_DrawWraps :
    (0x46#8).toNat % 64 = (0x06#8).toNat % 64 ∧ (0x22#8).toNat % 32 = (0x02#8).toNat % 32 ∧
    after (exec (.drw 0 1 1) (start (v01 0x46#8 0x22#8))) (fun _ => true) = true := by decide

theorem witness_Sys : (0x000#12 ≠ 0x0E0#12) ∧ (0x000#12 ≠ 0x0EE#12) := by decide

theorem witness_Return :
    CoreState.reset.sp.val = 0 ∧ (depth 1).sp.val = (0 : SlotIdx).val + 1 ∧
    (depth 16).sp.val = (15 : SlotIdx).val + 1 := by decide

theorem witness_Call :
    (depth 16).sp.val = 16 ∧ (depth 15).sp.val = (15 : SlotIdx).val ∧
    CoreState.reset.sp.val = (0 : SlotIdx).val := by decide

theorem witness_ReturnAfterCall :
    (depth 15).sp.val < 16 ∧ ∃ t, exec (.call 0x300#12) (start (depth 15)) = .next t ∧
      ({ State.reset with stack := t.stack, sp := t.sp } : State).stack = t.stack := ⟨by decide, _, rfl, rfl⟩

/-- The flag clauses are about x other than F. -/
theorem witness_Flags : (0xE : RegIdx) ≠ 0xF := by decide

/-- Key F is the last one, 0x10 the first number that names none. -/
theorem witness_KeySkips :
    ((CoreState.reset.setV 5 0xF#8).getV 5).toNat = (15 : KeyIdx).val ∧
    ((CoreState.reset.setV 5 0x10#8).getV 5).toNat > 0xF := by decide

/-- A latching press; a press with a key latched already. -/
theorem witness_SetInput :
    ((waiting none).fault = none ∧ (waiting none).wait = true ∧ (waiting none).latch = none ∧
      (waiting none).key.get 15 = false) ∧
    ¬((waiting (some 3)).wait = true ∧ (waiting (some 3)).latch = none ∧ true = true ∧
      (waiting (some 3)).key.get 15 = false) := by decide

/-- Key 15 alone is newly pressed; nothing is newly pressed. -/
theorem witness_SetInputs :
    ((waiting none).fault = none ∧ (waiting none).wait = true ∧ (waiting none).latch = none ∧
      (Vector.replicate 16 false |>.set 15 true).get 15 = true ∧ (waiting none).key.get 15 = false ∧
      (∀ j : KeyIdx, j < 15 → ¬((Vector.replicate 16 false |>.set 15 true).get j = true ∧
        (waiting none).key.get j = false))) ∧
    (∀ j : KeyIdx, ¬((Vector.replicate 16 false).get j = true ∧ (waiting none).key.get j = false)) := by decide

theorem witness_Tick : CoreState.reset.fault = none := by decide

/-- Stores and loads that end at the last byte of memory. -/
theorem witness_MemoryBlocks :
    Memory.wf (CoreState.reset.setI 0xFFD#16).mem = true ∧ (CoreState.reset.setI 0xFFD#16).idx.toNat + 2 ≤ 0xFFF ∧
    Memory.wf (CoreState.reset.setI 0xFF0#16).mem = true ∧
    (CoreState.reset.setI 0xFF0#16).idx.toNat + (0xF : RegIdx).val ≤ 0xFFF := by decide

/-- Accesses whose last byte is the first one outside memory. -/
theorem witness_AccessPastMemory :
    (2 : Fin 16).val ≠ 0 ∧ (CoreState.reset.setI 0xFFF#16).idx.toNat + (2 : Fin 16).val > 0x1000 ∧
    (CoreState.reset.setI 0xFFE#16).idx.toNat + 2 > 0xFFF ∧
    (CoreState.reset.setI 0xFF1#16).idx.toNat + (0xF : RegIdx).val > 0xFFF := by decide

/-- V-MEM-23. -/
theorem witness_StoredBytes :
    Memory.wf ((v01 0x12#8 0#8).setI 0x202#16).mem = true ∧ (0 : RegIdx).val + 1 = (1 : RegIdx).val ∧
    (1 : RegIdx) ≤ 1 ∧ ∃ t, exec (.store 1) (start ((v01 0x12#8 0#8).setI 0x202#16)) = .next t :=
  ⟨by decide, by decide, by decide, _, rfl⟩

/-- V-RST-03 and V-RST-04: the longest ROM and one a byte longer. -/
theorem witness_LoadPlaces :
    CoreState.reset.fault = none ∧ Memory.wf CoreState.reset.mem = true ∧
    (List.replicate 3584 0xAA#8).length ≤ 3584 ∧ (List.replicate 3585 0xAA#8).length > 3584 :=
  ⟨rfl, rfl, List.length_replicate.le, by rw [List.length_replicate]; decide⟩

/-- A run that goes on and one that faults; and two places of the random source under one CORE state whose
next step is no Cxkk. -/
theorem witness_InterfaceRuns :
    (∃ t, Sys2Proof.core.run 1 State.reset = .next t) ∧
    (∃ f, Sys2Proof.core.run 2 (ready 0x1FFF CoreState.reset) = .fault f) ∧
    State.reset.toCoreState = ({ State.reset with draws := 5 } : State).toCoreState ∧
    State.reset.draws ≠ ({ State.reset with draws := 5 } : State).draws ∧
    ¬ (∃ x kk, State.reset.nextWork = .run (.rnd x kk)) := by
  refine ⟨⟨_, rfl⟩, ⟨_, rfl⟩, rfl, by decide, ?_⟩
  rintro ⟨x, kk, h⟩
  have e : State.reset.nextWork = .run (.sys 0) := by decide
  rw [e] at h
  cases h

end Sys2Proof.Tests
end

/-! The two-level lookup of R95 for the families 0, 8, E and F: the first level by the field f, then what
the second level answers on a listed and on an unlisted sub-opcode. -/

section
namespace Sys2Proof.Laws

/-! ## The first level: the families with a second one -/

theorem decodeWord_of_fieldF_0 {op : Word} (h : fieldF op = 0x0#4) :
    decodeWord op = .ok (decodeFamily0 op) := by
  simp [decodeWord, h]

theorem decodeWord_of_fieldF_8 {op : Word} (h : fieldF op = 0x8#4) :
    decodeWord op = decodeFamily8 op := by
  simp [decodeWord, h]

theorem decodeWord_of_fieldF_E {op : Word} (h : fieldF op = 0xE#4) :
    decodeWord op = decodeFamilyE op := by
  simp [decodeWord, h]

theorem decodeWord_of_fieldF_F {op : Word} (h : fieldF op = 0xF#4) :
    decodeWord op = decodeFamilyF op := by
  simp [decodeWord, h]

/-! ## The second level: sub-opcodes that are not listed

Only the last arm of a family's match can be taken; in every other arm the sub-opcode is a listed one. -/

theorem opNNN_inj {f : BitVec 4} {a b : BitVec 12} : opNNN f a = opNNN f b ↔ a = b :=
  ⟨fun h => by simpa using congrArg fieldNNN h, fun h => h ▸ rfl⟩

/-- 0x00E0 and 0x00EE are the only opcodes of family 0 that are not 0nnn: their nnn is 0x0E0 and 0x0EE. -/
theorem decodeFamily0_opNNN {nnn : BitVec 12} (hcls : nnn ≠ 0x0E0#12) (hret : nnn ≠ 0x0EE#12) :
    decodeFamily0 (opNNN 0x0#4 nnn) = .sys nnn := by
  have hE0 : opNNN 0x0#4 nnn ≠ 0x00E0#16 := mt (opNNN_inj (b := 0x0E0#12)).1 hcls
  have hEE : opNNN 0x0#4 nnn ≠ 0x00EE#16 := mt (opNNN_inj (b := 0x0EE#12)).1 hret
  simp [decodeFamily0, hE0, hEE]

theorem decodeFamily8_unknown {op : Word}
    (h : fieldN op ∈ [0x8#4, 0x9#4, 0xA#4, 0xB#4, 0xC#4, 0xD#4, 0xF#4]) :
    decodeFamily8 op = .error (.unknownOpcode op) := by
  unfold decodeFamily8
  split
  case h_10 => rfl
  all_goals simp_all

theorem decodeFamilyE_unknown {op : Word} (h : fieldKK op ∉ [0x9E#8, 0xA1#8]) :
    decodeFamilyE op = .error (.unknownOpcode op) := by
  unfold decodeFamilyE
  split
  case h_3 => rfl
  all_goals simp_all

theorem decodeFamilyF_unknown {op : Word}
    (h : fieldKK op ∉
      [0x07#8, 0x0A#8, 0x15#8, 0x18#8, 0x1E#8, 0x29#8, 0x33#8, 0x55#8, 0x65#8]) :
    decodeFamilyF op = .error (.unknownOpcode op) := by
  unfold decodeFamilyF
  split
  case h_10 => rfl
  all_goals simp_all

/-- Settles O3: the field f picks the family, whose second level has one arm per listed sub-opcode and
answers "unknown opcode" (family 0: 0nnn) on all others. -/
theorem secondLevelFamiliesDecode : Obligations.SecondLevelFamiliesDecode := by
  refine ⟨⟨rfl, rfl, fun nnn hcls hret => ?_⟩, fun x y => ?_, fun x => ?_, fun x => ?_⟩
  · rw [decodeWord_of_fieldF_0 (fieldF_opNNN _ _), decodeFamily0_opNNN hcls hret]
  · simp only [decodeWord_of_fieldF_8 (fieldF_opXYN _ _ _ _)]
    refine ⟨?_, ?_, ?_, ?_, ?_, ?_, ?_, ?_, ?_, fun n hn => decodeFamily8_unknown (by simpa using hn)⟩
    all_goals simp [decodeFamily8]
  · simp only [decodeWord_of_fieldF_E (fieldF_opXKK _ _ _)]
    refine ⟨?_, ?_, fun kk hkk => decodeFamilyE_unknown (by simpa using hkk)⟩
    all_goals simp [decodeFamilyE]
  · simp only [decodeWord_of_fieldF_F (fieldF_opXKK _ _ _)]
    refine ⟨?_, ?_, ?_, ?_, ?_, ?_, ?_, ?_, ?_,
      fun kk hkk => decodeFamilyF_unknown (by simpa using hkk)⟩
    all_goals simp [decodeFamilyF]

end Sys2Proof.Laws
end

/-! One step of the cycle: the work that a fetch in memory selects, what a step leaves alone whatever it does,
and which command writes which of the timers, the keys and the screen. -/

section
namespace Sys2Proof.Laws

open Sys2Proof.Machine

/-! ## The work of a fetch in memory -/

/-- A running machine outside a key wait does what the opcode at PC and PC + 1 asks for (R93, R218). -/
theorem nextWork_of_fetching {s : CoreState} (hf : s.fault = none) (hw : s.wait = false)
    (hpc : s.pc.toNat + 1 ≤ 0xFFF) :
    s.nextWork =
      workOfFetch (.ok (wordOfBytes (s.readByte s.pc.toNat) (s.readByte (s.pc.toNat + 1)))) := by
  rcases fetchWord_cases s with ⟨-, hfetch⟩ | ⟨hout, -⟩
  · simp [CoreState.nextWork, hf, hw, hfetch]
  · simp only [Config.memSize] at hout
    omega

theorem workOfFetch_of_decoded {op : Word} {i : Instr} (h : decodeWord op = .ok i) :
    workOfFetch (.ok op) = .run i := by
  simp only [workOfFetch, h]

theorem workOfFetch_of_rejected {op : Word} {r : Rejected} (h : decodeWord op = .error r) :
    workOfFetch (.ok op) = .unknown op := by
  simp only [workOfFetch, h]

/-- Settles O9: the decoded opcode is the work of the step, and `advance` is the fetch's increment of PC. -/
theorem stepRunsTheDecodedInstruction : Obligations.StepRunsTheDecodedInstruction := by
  intro s i hf hw hpc hdec
  have hwork : s.nextWork = .run i :=
    (nextWork_of_fetching hf hw hpc).trans (workOfFetch_of_decoded hdec)
  exact cycle_of_run hwork

/-- The fetch's increment changes PC alone (R93). -/
theorem advance_onlyChanges_pc (s : CoreState) : OnlyChanges (fun p => p = .pc) s s.advance := by
  intro p hp
  cases p
  case pc => exact absurd rfl hp
  all_goals rfl

/-- Settles O10: an opcode that is rejected is the work `unknown`, whose next state is the one after the
fetch. -/
theorem unknownOpcodeIsReportedNoOp : Obligations.UnknownOpcodeIsReportedNoOp := by
  intro s r hf hw hpc hdec
  have hwork : s.nextWork = .unknown _ :=
    (nextWork_of_fetching hf hw hpc).trans (workOfFetch_of_rejected hdec)
  refine ⟨by rw [CoreState.stepDiag, hwork], { s with toCoreState := s.advance }, ?_, rfl, rfl,
    advance_onlyChanges_pc s.toCoreState⟩
  exact cycle_of_unknown hwork

/-! ## What the key-wait pass leaves alone (R173) -/

@[simp] theorem keyWaitPass_key (s : CoreState) : (keyWaitPass s).key = s.key := by
  rcases keyWaitPass_cases s with ⟨-, e⟩ | ⟨k, -, e⟩ <;> simp [e]

@[simp] theorem keyWaitPass_dt (s : CoreState) : (keyWaitPass s).dt = s.dt := by
  rcases keyWaitPass_cases s with ⟨-, e⟩ | ⟨k, -, e⟩ <;> simp [e]

@[simp] theorem keyWaitPass_st (s : CoreState) : (keyWaitPass s).st = s.st := by
  rcases keyWaitPass_cases s with ⟨-, e⟩ | ⟨k, -, e⟩ <;> simp [e]

@[simp] theorem keyWaitPass_fb (s : CoreState) : (keyWaitPass s).fb = s.fb := by
  rcases keyWaitPass_cases s with ⟨-, e⟩ | ⟨k, -, e⟩ <;> simp [e]

/-! ## The writers of the timers, the keys and the screen -/

/-- Of the works of a step only a run instruction can write a timer or the screen, and none writes a key
(R100). -/
theorem step_next_writers {s t : State} (h : step s = .next t) :
    t.key = s.key ∧
    (t.dt ≠ s.dt → ∃ x, s.nextWork = .run (.ldDT x)) ∧
    (t.st ≠ s.st → ∃ x, s.nextWork = .run (.ldST x)) ∧
    (t.fb ≠ s.fb → s.nextWork = .run .cls ∨ ∃ x y n, s.nextWork = .run (.drw x y n)) := by
  rcases step_next h with ⟨-, rfl⟩ | ⟨op, -, rfl⟩ | ⟨i, hwork, hexec⟩
  · simp
  · simp
  · have hi := exec_next_keeps hexec
    simp only [hwork, Work.run.injEq]
    exact ⟨hi.key, hi.dt, hi.st, hi.fb⟩

/-- A command that is not a step leaves the screen, and writes the timers only as tick_timers and the keys
only as set_input or set_inputs (R230, R34, R35). That load writes none of them is D21. -/
theorem afterCommand_writers {c : Command} (s : CoreState) (hstep : ∀ rnd, c ≠ .step rnd) :
    (afterCommand c s).fb = s.fb ∧
    (c ≠ .tickTimers → (afterCommand c s).dt = s.dt ∧ (afterCommand c s).st = s.st) ∧
    ((∀ k p, c ≠ .setInput k p) → (∀ levels, c ≠ .setInputs levels) →
      (afterCommand c s).key = s.key) := by
  rcases afterCommand_cases c s with e | ⟨rnd, _, hc, -⟩ | ⟨rnd, _, hc, -⟩ | ⟨rom, -, e⟩ | ⟨hc, e⟩ |
    ⟨k, p, hc, e⟩ | ⟨levels, hc, e⟩
  · simp [e]
  · exact absurd hc (hstep rnd)
  · exact absurd hc (hstep rnd)
  · rw [e, loadRom_eq]
    simp
  · rw [e]
    exact ⟨rfl, fun h => absurd hc h, fun _ _ => rfl⟩
  · rw [e, setInput_eq]
    exact ⟨rfl, fun _ => ⟨rfl, rfl⟩, fun h _ => absurd hc (h k p)⟩
  · rw [e, setInputs_eq]
    exact ⟨rfl, fun _ => ⟨rfl, rfl⟩, fun _ h => absurd hc (h levels)⟩

/-- Settles O17: the writers of a step and of the other commands; a pixel that changed is a screen that
changed. -/
theorem stepsLeaveTimersKeysAndScreen : Obligations.StepsLeaveTimersKeysAndScreen := by
  refine ⟨fun s t h => ?_, fun c s hstep => afterCommand_writers s hstep⟩
  obtain ⟨hkey, hdt, hst, hfb⟩ := step_next_writers h
  exact ⟨fun k => by rw [hkey], hdt, hst, fun px py hpx => hfb (fun e => hpx (by rw [e]))⟩

end Sys2Proof.Laws
end

/-! The display instructions (spec 41_display.md): what they write of the machine, and what they leave alone. -/

section
namespace Sys2Proof.Laws

open Sys2Proof.Machine

/-- Writing the whole screen changes pixels alone. -/
theorem setFB_onlyChanges_pixels (s : CoreState) (fb : Framebuffer) :
    OnlyChanges (fun p => ∃ px py, p = .pixel px py) s (s.setFB fb) := by
  intro p hp
  cases p
  case pixel px py => exact absurd ⟨px, py, rfl⟩ hp
  all_goals rfl

/-- Settles O28: 00E0 goes on with the blank screen in place of FB. -/
theorem clearScreen : Obligations.ClearScreen := by
  intro s
  refine completes_of_goOn (t := s.setFB blankScreen) rfl rfl (fun _ => rfl) ⟨fun px py => ?_, ?_⟩
  · rw [CoreState.setFB_fb, pixel_blankScreen]
  · exact setFB_onlyChanges_pixels s blankScreen

end Sys2Proof.Laws
end

/-! The control-transfer instructions (spec 42_control_flow.md): the jump, the two cases of a call, and the
skips on a register. -/

section
namespace Sys2Proof.Laws

open Sys2Proof.Machine

/-! ## What they leave alone -/

/-- A state keeps every part of itself. -/
theorem onlyChanges_self (may : Part → Prop) (s : CoreState) : OnlyChanges may s s := by
  intro p _
  cases p <;> rfl

/-- Writing PC changes PC alone. -/
theorem setPC_onlyChanges_pc (s : CoreState) (a : Word) : OnlyChanges (fun p => p = .pc) s (s.setPC a) := by
  intro p hp
  cases p
  case pc => exact absurd rfl hp
  all_goals rfl

/-- A skip changes at most PC. -/
theorem skipIf_onlyChanges_pc (s : CoreState) (c : Bool) : OnlyChanges (fun p => p = .pc) s (s.skipIf c) := by
  rw [skipIf_eq]
  exact setPC_onlyChanges_pc s _

/-! ## The jump -/

/-- A 12-bit address keeps its value in PC (R72). -/
@[simp] theorem toNat_addrOf (nnn : BitVec 12) : (addrOf nnn).toNat = nnn.toNat :=
  BitVec.toNat_setWidth_of_le (by decide)

/-- Settles O35: 1nnn goes on with `addrOf nnn` in PC. -/
theorem jumpSetsPC : Obligations.JumpSetsPC := by
  intro nnn s
  have hdec : decodeWord (opNNN 0x1#4 nnn) = .ok (.jp nnn) := by simp [decodeWord]
  refine completes_of_goOn (t := s.setPC (addrOf nnn)) hdec rfl (fun _ => rfl) ⟨?_, ?_⟩
  · rw [CoreState.setPC_pc, toNat_addrOf]
  · exact setPC_onlyChanges_pc s (addrOf nnn)

/-! ## The call -/

/-- A call on a full stack is the overflow diagnostic and nothing else (R122). -/
theorem pushCall_of_full {s : CoreState} (h : s.sp.val = 16) (target : Word) :
    s.pushCall target = (s, .stackOverflow) := by
  rcases pushCall_cases target s with ⟨-, e⟩ | ⟨j, -, hj, -, -⟩
  · exact e
  · omega

/-- A call whose next free slot is `j` fills it with PC and enters `target` (R122). -/
theorem pushCall_of_free {s : CoreState} {j : SlotIdx} (h : s.sp.val = j.val) (target : Word) :
    s.pushCall target =
      ({ s with stack := s.stack.set j.val s.pc j.isLt, sp := j.succ, pc := target }, .none) := by
  rcases pushCall_cases target s with ⟨hfull, -⟩ | ⟨i, p, hi, hp, e⟩
  · omega
  · obtain rfl : i = j := Fin.ext (hi.symm.trans h)
    obtain rfl : p = i.succ := Fin.ext hp
    exact e

/-- A push into slot `j` changes PC, SP and that slot alone. -/
theorem push_onlyChanges (s : CoreState) (j : SlotIdx) (p : Fin 17) (target : Word) :
    OnlyChanges (fun q => q = .pc ∨ q = .sp ∨ q = .slot j) s
      { s with stack := s.stack.set j.val s.pc j.isLt, sp := p, pc := target } := by
  intro q hq
  cases q
  case pc => exact absurd (.inl rfl) hq
  case sp => exact absurd (.inr (.inl rfl)) hq
  case slot i =>
    have hne : i ≠ j := fun e => hq (.inr (.inr (congrArg Part.slot e)))
    exact (get_set_slot s.stack j i s.pc).trans (if_neg hne)
  all_goals rfl

/-- 2nnn completes with what the push of PC answers: its state and its diagnostic. -/
theorem completes_call {nnn : BitVec 12} {s t : CoreState} {d : Diag} {P : CoreState → Prop}
    (h : s.pushCall (addrOf nnn) = (t, d)) (hp : P t) :
    Completes (opNNN 0x2#4 nnn) (.call nnn) s d P := by
  have hdec : decodeWord (opNNN 0x2#4 nnn) = .ok (.call nnn) := by simp [decodeWord]
  refine completes_of_goOn hdec (congrArg Prod.snd h) (fun n => ?_) hp
  exact congrArg (fun r => State.goOn { toCoreState := s, draws := n } r.1) h

/-- Settles O36: the two cases of the push, full stack and free slot `j`. -/
theorem callPushesOrOverflows : Obligations.CallPushesOrOverflows := by
  refine fun nnn s => ⟨fun hfull => ?_, fun j hj => ?_⟩
  · exact completes_call (pushCall_of_full hfull _) (onlyChanges_self _ s)
  · refine completes_call (pushCall_of_free hj _) ⟨?_, rfl, toNat_addrOf nnn, push_onlyChanges s j _ _⟩
    exact (get_set_slot s.stack j j s.pc).trans (if_pos rfl)

/-! ## The skips -/

/-- An instruction whose meaning is a skip on `c` completes with PC two further exactly when `c` holds. -/
theorem completes_skip {w : Word} {i : Instr} {s : CoreState} {c : Bool} {a : Word}
    (hw : decodeWord w = .ok i) (hd : reported i s = .none)
    (he : ∀ n, exec i { toCoreState := s, draws := n } =
      State.goOn { toCoreState := s, draws := n } (s.skipIf c))
    (ha : (if c then s.pc + 2#16 else s.pc) = a) :
    Completes w i s .none fun t => t.pc = a ∧ OnlyChanges (fun p => p = .pc) s t := by
  refine completes_of_goOn hw hd he ⟨?_, skipIf_onlyChanges_pc s c⟩
  rw [skipIf_eq]
  exact ha

/-- Settles O38: each of the four is a skip on its own comparison; 4xkk and 9xy0 skip on the negated one. -/
theorem skipsTestTheirCondition : Obligations.SkipsTestTheirCondition := by
  refine ⟨fun x kk s => ?seImm, fun x kk s => ?sneImm, fun x y s => ?seReg, fun x y s => ?sneReg⟩
  case seImm =>
    exact completes_skip (c := s.getV x == kk) (by simp [decodeWord]) rfl (fun _ => rfl) (by simp)
  case sneImm =>
    exact completes_skip (c := s.getV x != kk) (by simp [decodeWord]) rfl (fun _ => rfl) (by simp)
  case seReg =>
    exact completes_skip (c := s.getV x == s.getV y) (by simp [decodeWord]) rfl (fun _ => rfl) (by simp)
  case sneReg =>
    exact completes_skip (c := s.getV x != s.getV y) (by simp [decodeWord]) rfl (fun _ => rfl) (by simp)

end Sys2Proof.Laws
end

/-! The immediate instructions 6xkk, 7xkk and Annn (spec 43_immediate.md): one write of a register or of I,
and nothing else. -/

section
namespace Sys2Proof.Laws

open Sys2Proof.Machine

/-- Writing Vx changes Vx alone: another register, VF too, keeps its value. -/
theorem setV_onlyChanges_v (s : CoreState) (x : RegIdx) (b : Byte) :
    OnlyChanges (fun p => p = .v x) s (s.setV x b) := by
  intro p hp
  cases p
  case v r => exact getV_setV_ne s x r b (fun e => hp (congrArg Part.v e))
  all_goals rfl

/-- Writing I changes I alone. -/
theorem setI_onlyChanges_idx (s : CoreState) (a : Word) :
    OnlyChanges (fun p => p = .idx) s (s.setI a) := by
  intro p hp
  cases p
  case idx => exact absurd rfl hp
  all_goals rfl

/-- Settles O40: each of the three goes on with its one write; the sum of 7xkk is the bytes' own, modulo 256. -/
theorem immediatesWriteTheirRegister : Obligations.ImmediatesWriteTheirRegister := by
  refine ⟨fun x kk s => ?ldImm, fun x kk s => ?addImm, fun nnn s => ?ldI⟩
  case ldImm =>
    have hdec : decodeWord (opXKK 0x6#4 x kk) = .ok (.ldImm x kk) := by simp [decodeWord]
    exact completes_of_goOn (t := s.setV x kk) hdec rfl (fun _ => rfl)
      ⟨getV_setV_same s x kk, setV_onlyChanges_v s x kk⟩
  case addImm =>
    have hdec : decodeWord (opXKK 0x7#4 x kk) = .ok (.addImm x kk) := by simp [decodeWord]
    refine completes_of_goOn (t := s.setV x (s.getV x + kk)) hdec rfl (fun _ => rfl)
      ⟨?_, setV_onlyChanges_v s x _⟩
    rw [getV_setV_same, BitVec.toNat_add]
  case ldI =>
    have hdec : decodeWord (opNNN 0xA#4 nnn) = .ok (.ldI nnn) := by simp [decodeWord]
    refine completes_of_goOn (t := s.setI (addrOf nnn)) hdec rfl (fun _ => rfl)
      ⟨?_, setI_onlyChanges_idx s _⟩
    rw [CoreState.setI_idx, toNat_addrOf]

end Sys2Proof.Laws
end

/-! The timer access instructions Fx07, Fx15 and Fx18 (spec 46_timer_access.md): one byte between Vx and a
timer, and nothing else. -/

section
namespace Sys2Proof.Laws

open Sys2Proof.Machine

/-- Writing DT changes DT alone. -/
theorem setDT_onlyChanges_dt (s : CoreState) (b : Byte) :
    OnlyChanges (fun p => p = .dt) s (s.setDT b) := by
  intro p hp
  cases p
  case dt => exact absurd rfl hp
  all_goals rfl

/-- Writing ST changes ST alone. -/
theorem setST_onlyChanges_st (s : CoreState) (b : Byte) :
    OnlyChanges (fun p => p = .st) s (s.setST b) := by
  intro p hp
  cases p
  case st => exact absurd rfl hp
  all_goals rfl

/-- Settles O49: family F decodes the three sub-opcodes, and each goes on with its one write. -/
theorem timerAccessMovesOneByte : Obligations.TimerAccessMovesOneByte := by
  intro x s
  obtain ⟨-, -, -, familyF⟩ := secondLevelFamiliesDecode
  obtain ⟨hFromDT, -, hDT, hST, -⟩ := familyF x
  refine ⟨?ldFromDT, ?ldDT, ?ldST⟩
  case ldFromDT =>
    exact completes_of_goOn (t := s.setV x s.dt) hFromDT rfl (fun _ => rfl)
      ⟨getV_setV_same s x s.dt, setV_onlyChanges_v s x s.dt⟩
  case ldDT =>
    exact completes_of_goOn (t := s.setDT (s.getV x)) hDT rfl (fun _ => rfl)
      ⟨CoreState.setDT_dt s _, setDT_onlyChanges_dt s _⟩
  case ldST =>
    exact completes_of_goOn (t := s.setST (s.getV x)) hST rfl (fun _ => rfl)
      ⟨CoreState.setST_st s _, setST_onlyChanges_st s _⟩

end Sys2Proof.Laws
end

/-! The index arithmetic of Fx1E (spec 47_index_memory.md R190). -/

section
namespace Sys2Proof.Laws

open Sys2Proof.Machine

/-- Zero extension keeps the value of a byte (R190). -/
@[simp] theorem toNat_zext16 (b : Byte) : (zext16 b).toNat = b.toNat :=
  BitVec.toNat_setWidth_of_le (by decide)

/-- Settles O52: Fx1E goes on with one write, to I; the sum of words is the sum of I and the byte,
modulo 2^16. -/
theorem addIndexWraps : Obligations.AddIndexWraps := by
  intro x s
  obtain ⟨-, -, -, familyF⟩ := secondLevelFamiliesDecode
  obtain ⟨-, -, -, -, hAddI, -⟩ := familyF x
  refine completes_of_goOn (t := s.setI (s.idx + zext16 (s.getV x))) hAddI rfl (fun _ => rfl)
    ⟨?_, setI_onlyChanges_idx s _⟩
  rw [CoreState.setI_idx, BitVec.toNat_add, toNat_zext16]

end Sys2Proof.Laws
end

/-! The timer tick and the sound signal (spec 60_exceptions.md R222, R224). -/

section
namespace Sys2Proof.Laws

open Sys2Proof.Machine

/-- With FAULT = none the guard of the state-changing commands lets the reply through (R216, R232). -/
theorem whileRunning_of_fault_none {s : CoreState} (h : s.fault = none) (reply : Reply) :
    whileRunning s reply = reply := by
  simp only [whileRunning, h]

/-- The tick of a timer is the truncated predecessor: the test for 0 is what keeps the byte from
wrapping (R222). -/
@[simp] theorem toNat_countDown (b : Byte) : (countDown b).toNat = b.toNat - 1 := by
  unfold countDown
  split
  case isTrue h => rw [h]; rfl
  case isFalse h =>
    have one_le : 1#8 ≤ b := by bv_omega
    exact BitVec.toNat_sub_of_le one_le

/-- A tick writes the two timers alone (R222). -/
theorem tickTimers_onlyChanges_timers (s : CoreState) :
    OnlyChanges (fun p => p = .dt ∨ p = .st) s (tickTimers s) := by
  intro p hp
  cases p
  case dt => exact absurd (.inl rfl) hp
  case st => exact absurd (.inr rfl) hp
  all_goals rfl

/-- Settles O50: while FAULT = none the command leaves `tickTimers s`, each timer counted down. -/
theorem tickCountsDownToZero : Obligations.TickCountsDownToZero := by
  intro s hf
  exact ⟨tickTimers s, whileRunning_of_fault_none hf _, toNat_countDown s.dt, toNat_countDown s.st,
    tickTimers_onlyChanges_timers s⟩

/-- The sound signal decides ST > 0 (R224). -/
theorem isSoundActive_iff (s : CoreState) : isSoundActive s = true ↔ s.st.toNat > 0 :=
  decide_eq_true_iff

/-- Settles O51: the command has no guard on FAULT, and it replies with the signal of the state it leaves
as it was. -/
theorem soundIsActiveWhileTimerRuns : Obligations.SoundIsActiveWhileTimerRuns :=
  fun s => ⟨isSoundActive s, rfl, isSoundActive_iff s⟩

end Sys2Proof.Laws
end

/-! Decoding and encoding are inverse (spec 30_encoding.md R70 to R82), and the opcodes that decode to nothing. -/

section
namespace Sys2Proof.Laws

/-! ## Decoding an encoding -/

/-- Every well-formed instruction is what its opcode decodes to: the fields of an assembled opcode are the
operands, and the listed sub-opcodes select its arm. -/
theorem decodeWord_encode {i : Instr} (h : i.wf = true) : decodeWord (encode i) = .ok i := by
  cases i
  case sys nnn =>
    simp only [Instr.wf, Bool.and_eq_true, bne_iff_ne] at h
    rw [encode, decodeWord_of_fieldF_0 (fieldF_opNNN _ _), decodeFamily0_opNNN h.1 h.2]
  case cls | ret => rfl
  case ldReg | orReg | andReg | xorReg | addReg | sub | shr | subn | shl =>
    rw [encode, decodeWord_of_fieldF_8 (fieldF_opXYN _ _ _ _)]
    simp [decodeFamily8]
  case skp | sknp =>
    rw [encode, decodeWord_of_fieldF_E (fieldF_opXKK _ _ _)]
    simp [decodeFamilyE]
  case ldFromDT | ldKey | ldDT | ldST | addI | ldF | ldB | store | load =>
    rw [encode, decodeWord_of_fieldF_F (fieldF_opXKK _ _ _)]
    simp [decodeFamilyF]
  all_goals simp [encode, decodeWord]

/-- Settles O1: the two bytes make the opcode again, and the opcode decodes to its instruction. -/
theorem decodeOfEncodeGivesTheInstruction : Obligations.DecodeOfEncodeGivesTheInstruction := by
  intro i rest hwf
  simp only [decode, wordOfBytes_bytes, decodeWord_encode hwf]

/-! ## Encoding what was decoded -/

theorem opNNN_of_fieldF {op : Word} {f : BitVec 4} (h : fieldF op = f) : opNNN f (fieldNNN op) = op :=
  h ▸ opNNN_fields op

theorem opXKK_of_fields {op : Word} {f : BitVec 4} {kk : BitVec 8} (h : fieldF op = f)
    (hkk : fieldKK op = kk) : opXKK f (fieldX op) kk = op :=
  h ▸ hkk ▸ opXKK_fields op

theorem opXYN_of_fields {op : Word} {f n : BitVec 4} (h : fieldF op = f) (hn : fieldN op = n) :
    opXYN f (fieldX op) (fieldY op) n = op :=
  h ▸ hn ▸ opXYN_fields op

/-- Family 0: an opcode that is neither of the two exact matches is its own 0nnn, and its nnn is neither
of the two shut out (R75). -/
theorem encode_decodeFamily0 {op : Word} (h : fieldF op = 0x0#4) :
    encode (decodeFamily0 op) = op ∧ (decodeFamily0 op).wf = true := by
  have hop : opNNN 0x0#4 (fieldNNN op) = op := opNNN_of_fieldF h
  rw [decodeFamily0]
  split
  case isTrue hcls => exact ⟨hcls.symm, rfl⟩
  case isFalse hcls =>
    split
    case isTrue hret => exact ⟨hret.symm, rfl⟩
    case isFalse hret =>
      have hE0 : fieldNNN op ≠ 0x0E0#12 := fun e => hcls (by rw [← hop, e]; rfl)
      have hEE : fieldNNN op ≠ 0x0EE#12 := fun e => hret (by rw [← hop, e]; rfl)
      exact ⟨hop, by simp [Instr.wf, hE0, hEE]⟩

theorem encode_of_decodeFamily8 {op : Word} {i : Instr} (hf : fieldF op = 0x8#4)
    (h : decodeFamily8 op = .ok i) : encode i = op ∧ i.wf = true := by
  unfold decodeFamily8 at h
  split at h <;> cases h <;> exact ⟨opXYN_of_fields hf ‹_›, rfl⟩

theorem encode_of_decodeFamilyE {op : Word} {i : Instr} (hf : fieldF op = 0xE#4)
    (h : decodeFamilyE op = .ok i) : encode i = op ∧ i.wf = true := by
  unfold decodeFamilyE at h
  split at h <;> cases h <;> exact ⟨opXKK_of_fields hf ‹_›, rfl⟩

theorem encode_of_decodeFamilyF {op : Word} {i : Instr} (hf : fieldF op = 0xF#4)
    (h : decodeFamilyF op = .ok i) : encode i = op ∧ i.wf = true := by
  unfold decodeFamilyF at h
  split at h <;> cases h <;> exact ⟨opXKK_of_fields hf ‹_›, rfl⟩

/-- Settles O2: each family's arm keeps every field of the opcode, and the opcode is assembled from them. -/
theorem encodeOfDecodeGivesTheOpcode : Obligations.EncodeOfDecodeGivesTheOpcode := by
  intro op i h
  unfold decodeWord at h
  split at h
  case h_1 hf => cases h; exact encode_decodeFamily0 hf
  case h_9 hf => exact encode_of_decodeFamily8 hf h
  case h_15 hf => exact encode_of_decodeFamilyE hf h
  case h_16 =>
    have hf : fieldF op = 0xF#4 := nibble_eq_F fun k hk => by interval_cases k <;> assumption
    exact encode_of_decodeFamilyF hf h
  case h_2 hf | h_3 hf | h_11 hf | h_12 hf => cases h; exact ⟨opNNN_of_fieldF hf, rfl⟩
  case h_4 hf | h_5 hf | h_7 hf | h_8 hf | h_13 hf => cases h; exact ⟨opXKK_of_fields hf rfl, rfl⟩
  case h_14 hf => cases h; exact ⟨opXYN_of_fields hf rfl, rfl⟩
  case h_6 hf | h_10 hf =>
    split at h
    case isTrue hn => cases h; exact ⟨opXYN_of_fields hf hn, rfl⟩
    case isFalse => cases h

/-! ## The opcodes that decode to nothing -/

theorem decodeFamily8_eq_error_iff {op : Word} :
    decodeFamily8 op = .error (.unknownOpcode op) ↔
      fieldN op ∈ [0x8#4, 0x9#4, 0xA#4, 0xB#4, 0xC#4, 0xD#4, 0xF#4] := by
  refine ⟨fun h => ?_, decodeFamily8_unknown⟩
  have listed_or_not : ∀ n : BitVec 4, n ∈ [0x8#4, 0x9#4, 0xA#4, 0xB#4, 0xC#4, 0xD#4, 0xF#4] ∨
      n ∈ [0x0#4, 0x1#4, 0x2#4, 0x3#4, 0x4#4, 0x5#4, 0x6#4, 0x7#4, 0xE#4] := by decide
  refine (listed_or_not (fieldN op)).resolve_right fun hn => ?_
  simp only [List.mem_cons, List.not_mem_nil, or_false] at hn
  rcases hn with hn | hn | hn | hn | hn | hn | hn | hn | hn <;> simp [decodeFamily8, hn] at h

theorem decodeFamilyE_eq_error_iff {op : Word} :
    decodeFamilyE op = .error (.unknownOpcode op) ↔ fieldKK op ∉ [0x9E#8, 0xA1#8] := by
  refine ⟨fun h hkk => ?_, decodeFamilyE_unknown⟩
  simp only [List.mem_cons, List.not_mem_nil, or_false] at hkk
  rcases hkk with hkk | hkk <;> simp [decodeFamilyE, hkk] at h

theorem decodeFamilyF_eq_error_iff {op : Word} :
    decodeFamilyF op = .error (.unknownOpcode op) ↔
      fieldKK op ∉ [0x07#8, 0x0A#8, 0x15#8, 0x18#8, 0x1E#8, 0x29#8, 0x33#8, 0x55#8, 0x65#8] := by
  refine ⟨fun h hkk => ?_, decodeFamilyF_unknown⟩
  simp only [List.mem_cons, List.not_mem_nil, or_false] at hkk
  rcases hkk with hkk | hkk | hkk | hkk | hkk | hkk | hkk | hkk | hkk <;>
    simp [decodeFamilyF, hkk] at h

/-- Settles O4: the first level answers "unknown opcode" in families 5 and 9 alone, by n; the other entries
of the table are those of the second level. -/
theorem unknownOpcodesAreExactlyTheTable : Obligations.UnknownOpcodesAreExactlyTheTable := by
  intro op
  unfold decodeWord
  split
  case h_9 hf => rw [decodeFamily8_eq_error_iff]; simp [hf]
  case h_15 hf => rw [decodeFamilyE_eq_error_iff]; simp [hf]
  case h_16 =>
    have hf : fieldF op = 0xF#4 := nibble_eq_F fun k hk => by interval_cases k <;> assumption
    rw [decodeFamilyF_eq_error_iff]
    simp [hf]
  case h_6 hf | h_10 hf =>
    split
    case isTrue hn => simp [hf, hn]
    case isFalse hn => simp [hf, hn]
  case h_1 hf | h_2 hf | h_3 hf | h_4 hf | h_5 hf | h_7 hf | h_8 hf | h_11 hf | h_12 hf | h_13 hf | h_14 hf =>
    simp [hf]

/-- Settles O5: each word is the encoding of its instruction; 0x8018 is an unknown opcode of family 8. -/
theorem writtenOutWordsDecode : Obligations.WrittenOutWordsDecode := by
  unfold Obligations.WrittenOutWordsDecode
  decide

end Sys2Proof.Laws
end

/-! The work of a step and the CORE's execute phase, each inverted once: what the work says of the state, how
the interface's step is the CORE's step with the drawn byte, and what either can answer. -/

section
namespace Sys2Proof.Laws

open Sys2Proof.Machine

/-! ## What the work says of the state (R218) -/

/-- What a kind of work says of the state that has it to do. -/
def WorkFits (s : CoreState) : Work → Prop
  | .frozen r => s.fault = some r
  | .keyWait => s.fault = none ∧ s.wait = true
  | .fetchFault a => s.fault = none ∧ s.fetchWord = .error a
  | .unknown _ => s.fault = none ∧ s.wait = false
  | .run i => s.fault = none ∧ s.wait = false ∧ s.fetchWord = .ok (encode i)

/-- The instruction that a step runs is the one whose opcode it fetched, because encoding undoes decoding. -/
theorem workFits_of_nextWork {s : CoreState} {w : Work} (h : s.nextWork = w) : WorkFits s w := by
  subst h
  rcases nextWork_cases s with ⟨r, hf, e⟩ | ⟨hf, hw, e⟩ | ⟨hf, -, a, ha, e⟩ |
    ⟨hf, hw, op, hop, ⟨r, -, e⟩ | ⟨i, hdec, e⟩⟩ <;> rw [e]
  · exact hf
  · exact ⟨hf, hw⟩
  · exact ⟨hf, ha⟩
  · exact ⟨hf, hw⟩
  · exact ⟨hf, hw, by rw [hop, (encodeOfDecodeGivesTheOpcode op i hdec).1]⟩

theorem nextWork_eq_frozen {s : CoreState} {r : Fault} (h : s.nextWork = .frozen r) : s.fault = some r :=
  workFits_of_nextWork h

theorem nextWork_eq_keyWait {s : CoreState} (h : s.nextWork = .keyWait) : s.fault = none ∧ s.wait = true :=
  workFits_of_nextWork h

theorem nextWork_eq_fetchFault {s : CoreState} {a : Nat} (h : s.nextWork = .fetchFault a) :
    s.fault = none ∧ s.fetchWord = .error a :=
  workFits_of_nextWork h

theorem nextWork_eq_unknown {s : CoreState} {op : Word} (h : s.nextWork = .unknown op) :
    s.fault = none ∧ s.wait = false :=
  workFits_of_nextWork h

theorem nextWork_eq_run {s : CoreState} {i : Instr} (h : s.nextWork = .run i) :
    s.fault = none ∧ s.wait = false ∧ s.fetchWord = .ok (encode i) :=
  workFits_of_nextWork h

/-! ## The interface's step on the CORE's state -/

/-- The CORE's part of the interface's step is the CORE's step with the drawn byte (log entry 1). -/
theorem coreOutcome_step (s : State) :
    coreOutcome (step s) = s.stepWith (Config.randomByte s.draws) := by
  rw [step, CoreState.stepWith]
  cases hw : s.nextWork with
  | frozen r => rw [cycle_of_frozen hw, cycle_of_frozen hw]; rfl
  | keyWait => rw [cycle_of_keyWait hw, cycle_of_keyWait hw]; rfl
  | fetchFault a => rw [cycle_of_fetchFault hw, cycle_of_fetchFault hw]; rfl
  | unknown op => rw [cycle_of_unknown hw, cycle_of_unknown hw]; rfl
  | run i => rw [cycle_of_run hw, cycle_of_run hw, coreOutcome_exec]

theorem stepWith_of_step_next {s t : State} (h : step s = .next t) :
    s.stepWith (Config.randomByte s.draws) = .next t.toCoreState := by
  rw [← coreOutcome_step, h]; rfl

/-! ## What the CORE's execute phase answers -/

/-- A key wait begins only by Fx0A; any other instruction leaves WAIT, WAITREG and LATCH (R172). -/
theorem executeWith_next_wait {rnd : Byte} {i : Instr} {s t : CoreState} (h : s.executeWith rnd i = .next t) :
    (t.wait = s.wait ∧ t.latch = s.latch ∧ t.waitReg = s.waitReg) ∨
    ∃ x, i = .ldKey x ∧ t = { s with wait := true, waitReg := x, latch := none, pc := s.pc - 2#16 } := by
  refine or_iff_not_imp_left.2 fun hne => ?_
  obtain ⟨x, rfl⟩ := (executeWith_next_keeps h).wait (by tauto)
  cases h
  exact ⟨x, rfl, rfl⟩

/-- A checked access faults exactly when it is out of range, with the record of its instruction (R214). -/
theorem withAccess_eq_fault {α : Type} {i : Instr} {s : State} {r : Except Nat α} {k : α → CoreState}
    {f : Fault} :
    withAccess i s r k = .fault f ↔
      ∃ a, r = .error a ∧ f = .addressFault a s.faultPC (some (encode i)) := by
  cases r <;> simp [raiseAddress, State.goOn, eq_comm]

/-- The address that a failed range check names is above 0xFFF. -/
theorem lt_max_memSize (base : Nat) : 0xFFF < max base Config.memSize :=
  Nat.lt_of_lt_of_le (by decide) (Nat.le_max_right base Config.memSize)

/-- A checked read that fails names an address above 0xFFF (R55). -/
theorem readChecked_eq_error {m : Memory} {base n a : Nat} (h : Memory.readChecked m base n = .error a) :
    0xFFF < a := by
  rcases readChecked_cases m base n with ⟨-, e⟩ | ⟨-, -, e⟩
  · rw [e] at h
    cases h
  · rw [e] at h
    cases h
    exact lt_max_memSize base

/-- A checked write that fails names an address above 0xFFF (R55). -/
theorem writeChecked_eq_error {m : Memory} {base a : Nat} {bs : List Byte}
    (h : Memory.writeChecked m base bs = .error a) : 0xFFF < a := by
  rcases writeChecked_cases m base bs with ⟨-, e⟩ | ⟨-, -, e⟩
  · rw [e] at h
    cases h
  · rw [e] at h
    cases h
    exact lt_max_memSize base

/-- The record of a fault that the execute phase of `i` raises from the state `s` after the fetch (R214). -/
def IsRecordOf (i : Instr) (s : CoreState) (f : Fault) : Prop :=
  (∃ a, 0xFFF < a ∧ f = .addressFault a s.faultPC (some (encode i))) ∨
  (∃ k : Byte, 15 < k.toNat ∧ f = .keyIndexFault k s.faultPC (encode i))

theorem isRecordOf_of_skipOnKey {i : Instr} {x : RegIdx} {level : Bool} {s : State} {f : Fault}
    (h : skipOnKey i x level s = .fault f) : IsRecordOf i s.toCoreState f := by
  rcases skipOnKey_cases i x level s with ⟨k, -, e⟩ | ⟨hk, e⟩
  · rw [e] at h
    cases h
  · rw [e] at h
    cases h
    exact .inr ⟨_, hk, rfl⟩

/-- An execute phase raises an AddressFault in a checked access or a KeyIndexFault in a key skip, and
nothing else. -/
theorem exec_fault_isRecordOf {i : Instr} {s : State} {f : Fault} (h : exec i s = .fault f) :
    IsRecordOf i s.toCoreState f := by
  cases i
  case drw | load =>
    obtain ⟨a, ha, rfl⟩ := withAccess_eq_fault.1 h
    exact .inl ⟨a, readChecked_eq_error ha, rfl⟩
  case ldB | store =>
    obtain ⟨a, ha, rfl⟩ := withAccess_eq_fault.1 h
    exact .inl ⟨a, writeChecked_eq_error ha, rfl⟩
  case skp | sknp => exact isRecordOf_of_skipOnKey h
  all_goals cases h

/-- The same of the CORE's execute phase. -/
theorem executeWith_fault_isRecordOf {rnd : Byte} {i : Instr} {s : CoreState} {f : Fault}
    (h : s.executeWith rnd i = .fault f) : IsRecordOf i s f := by
  by_cases hr : ∃ x kk, i = .rnd x kk
  · obtain ⟨x, kk, rfl⟩ := hr
    cases h
  · rw [executeWith_eq_exec rnd i s 0 (by simpa using hr), coreOutcome_eq_fault] at h
    exact exec_fault_isRecordOf h

/-- Everything a step of the CORE that faults can have done: the fetch faulted, or the instruction did. -/
theorem stepWith_fault {rnd : Byte} {s : CoreState} {f : Fault} (h : s.stepWith rnd = .fault f) :
    (∃ a, s.nextWork = .fetchFault a ∧ f = .addressFault a s.pc none) ∨
    (∃ i, s.nextWork = .run i ∧ IsRecordOf i s.advance f) := by
  rw [CoreState.stepWith] at h
  cases hw : s.nextWork with
  | frozen r => rw [cycle_of_frozen hw] at h; cases h
  | keyWait => rw [cycle_of_keyWait hw] at h; cases h
  | fetchFault a => rw [cycle_of_fetchFault hw] at h; cases h; exact .inl ⟨a, rfl, rfl⟩
  | unknown op => rw [cycle_of_unknown hw] at h; cases h
  | run i => rw [cycle_of_run hw] at h; exact .inr ⟨i, rfl, executeWith_fault_isRecordOf h⟩

/-! ## The random source -/

/-- A key skip that goes on read the level of the key that Vx names. -/
theorem skipOnKey_eq_next {i : Instr} {x : RegIdx} {level : Bool} {s t : State}
    (h : skipOnKey i x level s = .next t) :
    ∃ k : KeyIdx, (s.getV x).toNat = k.val ∧ t.toCoreState = s.skipIf (s.key.get k == level) ∧
      t.draws = s.draws := by
  rcases skipOnKey_cases i x level s with ⟨k, hk, e⟩ | ⟨-, e⟩
  · exact ⟨k, hk, (State.goOn_eq_next _ _ _).1 (e.symm.trans h)⟩
  · cases e.symm.trans h

/-- Every instruction but Cxkk leaves the random source where it stands. -/
theorem exec_next_draws {i : Instr} {s t : State} (hi : ∀ x kk, i ≠ .rnd x kk) (h : exec i s = .next t) :
    t.draws = s.draws := by
  cases i
  case rnd x kk => exact absurd rfl (hi x kk)
  case drw | ldB | store | load =>
    obtain ⟨a, -, -, hd⟩ := withAccess_eq_next.1 h
    exact hd
  case skp | sknp =>
    obtain ⟨k, -, -, hd⟩ := skipOnKey_eq_next h
    exact hd
  all_goals exact ((State.goOn_eq_next _ _ _).1 h).2

/-- A step that goes on moves the random source on by one byte when it runs Cxkk, and not at all
otherwise. -/
theorem step_next_draws {s t : State} (h : step s = .next t) :
    ((∃ x kk, s.nextWork = .run (.rnd x kk)) → t.draws = s.draws + 1) ∧
    ((∀ x kk, s.nextWork ≠ .run (.rnd x kk)) → t.draws = s.draws) := by
  rcases step_next h with ⟨hw, rfl⟩ | ⟨op, hw, rfl⟩ | ⟨i, hw, hexec⟩
  · simp [hw]
  · simp [hw]
  · simp only [hw, Work.run.injEq, ne_eq]
    refine ⟨?_, fun hi => exec_next_draws (s := { s with toCoreState := s.advance }) hi hexec⟩
    rintro ⟨x, kk, rfl⟩
    exact ((State.goOn_eq_next _ _ _).1 hexec).2

/-- Settles O15: the CORE's part of a step and the place of the random source fix the step. -/
theorem stepDrawsItsRandomInput : Obligations.StepDrawsItsRandomInput := by
  refine ⟨fun s t => ⟨fun h => ⟨stepWith_of_step_next h, step_next_draws h⟩, ?_⟩, fun s f => ?_,
    fun s r => ?_, fun a b s hw => ?_⟩
  · rintro ⟨hcore, hdrawn, hkept⟩
    rw [← coreOutcome_step, coreOutcome_eq_next] at hcore
    obtain ⟨u, hu, hcore⟩ := hcore
    obtain ⟨udrawn, ukept⟩ := step_next_draws hu
    have hdraws : u.draws = t.draws := by
      by_cases hr : ∃ x kk, s.nextWork = .run (.rnd x kk)
      · rw [udrawn hr, hdrawn hr]
      · push Not at hr
        rw [ukept hr, hkept hr]
    obtain rfl : u = t := by cases u; cases t; simp_all
    exact hu
  · rw [← coreOutcome_step, coreOutcome_eq_fault]
  · rw [← coreOutcome_step, coreOutcome_eq_refused]
  · rw [CoreState.stepWith, CoreState.stepWith, cycle, cycle]
    cases hn : s.nextWork with
    | run i => exact executeWith_eq a b i s.advance fun x kk e => hw x kk (e ▸ hn)
    | frozen | keyWait | fetchFault | unknown => rfl

/-! ## Going on, faulting, refusing -/

/-- A step of the CORE that goes on leaves FAULT as it was. -/
theorem stepWith_next_fault {rnd : Byte} {s t : CoreState} (h : s.stepWith rnd = .next t) :
    t.fault = s.fault := by
  rcases stepWith_next h with ⟨-, rfl⟩ | ⟨op, -, rfl⟩ | ⟨i, -, hexec⟩
  · rcases keyWaitPass_cases s with ⟨-, e⟩ | ⟨k, -, e⟩ <;> simp [e]
  · rfl
  · exact (executeWith_next_keeps hexec).fault

/-- Only a machine with a fault refuses a step (R216). -/
theorem step_refused {s : State} {r : Refusal} (h : step s = .refused r) : s.fault ≠ none := by
  rw [step] at h
  cases hw : s.nextWork with
  | frozen f => simp [nextWork_eq_frozen hw]
  | keyWait => rw [cycle_of_keyWait hw] at h; cases h
  | fetchFault a => rw [cycle_of_fetchFault hw] at h; cases h
  | unknown op => rw [cycle_of_unknown hw] at h; cases h
  | run i => rw [cycle_of_run hw] at h; exact absurd h (exec_not_refused i _ r)

/-- Settles O13: the two outcomes left when a refusal is impossible. -/
theorem runningMachineGoesOnOrFaults : Obligations.RunningMachineGoesOnOrFaults := by
  intro s hf
  cases h : step s with
  | next t => exact .inl ⟨t, rfl, (stepWith_next_fault (stepWith_of_step_next h)).trans hf⟩
  | fault f => exact .inr ⟨f, rfl⟩
  | refused r => exact absurd hf (step_refused h)

/-! ## The diagnostic -/

/-- Only 00EE and 2nnn report a diagnostic, and only at the end of the stack (R92, R120, R122). -/
theorem reported_cases (i : Instr) (s : CoreState) :
    (i = .ret ∧ s.sp.val = 0 ∧ reported i s = .stackUnderflow) ∨
    ((∃ nnn, i = .call nnn) ∧ s.sp.val = 16 ∧ reported i s = .stackOverflow) ∨
    (¬(i = .ret ∧ s.sp.val = 0) ∧ ¬((∃ nnn, i = .call nnn) ∧ s.sp.val = 16) ∧ reported i s = .none) := by
  cases i
  case ret =>
    rcases popCall_cases s with ⟨h, e⟩ | ⟨j, p, h, -, e⟩
    · exact .inl ⟨rfl, h, by rw [reported, e]⟩
    · exact .inr (.inr ⟨by omega, by simp, by rw [reported, e]⟩)
  case call nnn =>
    rcases pushCall_cases (addrOf nnn) s with ⟨h, e⟩ | ⟨j, p, h, -, e⟩
    · exact .inr (.inl ⟨⟨nnn, rfl⟩, h, by rw [reported, e]⟩)
    · exact .inr (.inr ⟨by simp, by omega, by rw [reported, e]⟩)
  all_goals exact .inr (.inr ⟨by simp, by simp, rfl⟩)

/-- Settles O14: by the work of the step; the fetch leaves SP to the instruction. -/
theorem stepDiagnosticIsExact : Obligations.StepDiagnosticIsExact := by
  intro s
  rw [CoreState.stepDiag]
  cases hw : s.nextWork with
  | frozen | keyWait | fetchFault | unknown => simp
  | run i =>
    simp only [Work.run.injEq]
    rcases reported_cases i s.advance with ⟨rfl, hsp, e⟩ | ⟨⟨nnn, rfl⟩, hsp, e⟩ | ⟨hret, hcall, e⟩
    · simpa [e] using hsp
    · simpa [e] using hsp
    · simp only [e, reduceCtorEq, false_iff]
      exact ⟨hret, hcall, by simp, by simp⟩

end Sys2Proof.Laws
end

/-! The invariants (spec 60_exceptions.md R214 to R216, 45_keypad.md): each is kept by the CORE's step, and with
it by the interface's step and by every command. -/

section
namespace Sys2Proof.Laws

open Sys2Proof.Machine

/-! ## Canonical memory and the latch inside a key wait -/

/-- The invariant speaks of memory, LATCH and WAIT alone. -/
theorem inv_of_eq {s t : CoreState} (h : s.Inv) (hm : t.mem = s.mem) (hl : t.latch = s.latch)
    (hw : t.wait = s.wait) : t.Inv := by
  rw [CoreState.Inv, hm, hl, hw]
  exact h

theorem keyWaitPass_inv {s : CoreState} (h : s.Inv) : (keyWaitPass s).Inv := by
  rcases keyWaitPass_cases s with ⟨-, e⟩ | ⟨k, -, e⟩
  · rwa [e]
  · rw [e]
    exact ⟨h.1, fun hl => absurd rfl hl⟩

/-- A step of the CORE keeps the invariant, whatever its random input. -/
theorem stepWith_next_inv {rnd : Byte} {s t : CoreState} (h : s.Inv) (hs : s.stepWith rnd = .next t) :
    t.Inv := by
  rcases stepWith_next hs with ⟨-, rfl⟩ | ⟨op, -, rfl⟩ | ⟨i, -, hexec⟩
  · exact keyWaitPass_inv h
  · exact inv_of_eq h rfl rfl rfl
  · have hmem : Memory.wf t.mem = true := executeWith_next_wf (s := s.advance) h.1 hexec
    rcases executeWith_next_wait hexec with ⟨hw, hl, -⟩ | ⟨x, -, rfl⟩
    · refine ⟨hmem, ?_⟩
      rw [hw, hl]
      exact h.2
    · exact ⟨hmem, fun _ => rfl⟩

/-- Settles O22: the interface's step is a step of the CORE. -/
theorem stepKeepsInvariant : Obligations.StepKeepsInvariant :=
  fun _ _ h hs => stepWith_next_inv h (stepWith_of_step_next hs)

/-- set_input latches a key only during a key wait (R174). -/
theorem setInput_inv {s : CoreState} (k : KeyIdx) (p : Bool) (h : s.Inv) : (setInput k p s).Inv := by
  rw [setInput_eq]
  rcases latchKey_cases k p s with ⟨⟨hw, -⟩, e⟩ | ⟨-, e⟩
  · exact ⟨h.1, fun _ => hw⟩
  · exact inv_of_eq h rfl (by rw [e]) rfl

/-- set_inputs is a run of set_input (R234). -/
theorem setInputs_inv {s : CoreState} (levels : Vector Bool 16) (h : s.Inv) : (setInputs levels s).Inv :=
  List.foldlRecOn allKeys _ h fun _ ht k _ => setInput_inv k (levels.get k) ht

/-- Settles O23: by the inversion of a command. -/
theorem everyCommandKeepsInvariant : Obligations.EveryCommandKeepsInvariant := by
  intro c s h
  rcases afterCommand_cases c s with e | ⟨rnd, t, -, hs, e⟩ | ⟨rnd, f, -, -, e⟩ | ⟨rom, -, e⟩ | ⟨-, e⟩ |
    ⟨k, p, -, e⟩ | ⟨levels, -, e⟩ <;> rw [e]
  · exact h
  · exact stepWith_next_inv h hs
  · exact inv_of_eq h rfl rfl rfl
  · refine ⟨loadRom_wf h.1, ?_⟩
    rw [loadRom_eq]
    exact h.2
  · exact inv_of_eq h rfl rfl rfl
  · exact setInput_inv k p h
  · exact setInputs_inv levels h

/-! ## The key wait stays at its Fx0A -/

/-- A fetch depends on PC and memory alone. -/
theorem fetchWord_congr {s t : CoreState} (hpc : t.pc = s.pc) (hm : t.mem = s.mem) :
    t.fetchWord = s.fetchWord := by
  simp only [CoreState.fetchWord, CoreState.readByte, hpc, hm]

theorem waitsAtItsInstruction_of_eq {s t : CoreState} (h : s.WaitsAtItsInstruction) (hw : t.wait = s.wait)
    (hr : t.waitReg = s.waitReg) (hpc : t.pc = s.pc) (hm : t.mem = s.mem) : t.WaitsAtItsInstruction := by
  rw [CoreState.WaitsAtItsInstruction, hw, hr, fetchWord_congr hpc hm]
  exact h

/-- Outside a key wait there is nothing to keep. -/
theorem waitsAtItsInstruction_of_not_wait {s : CoreState} (h : s.wait = false) : s.WaitsAtItsInstruction :=
  fun hw => absurd (hw.symm.trans h) (by decide)

/-- The Fx0A that begins a key wait puts PC back on the opcode that the step fetched; a step inside the wait
leaves PC or ends the wait. -/
theorem stepWith_next_waits {rnd : Byte} {s t : CoreState} (h : s.WaitsAtItsInstruction)
    (hs : s.stepWith rnd = .next t) : t.WaitsAtItsInstruction := by
  rcases stepWith_next hs with ⟨-, rfl⟩ | ⟨op, hn, rfl⟩ | ⟨i, hn, hexec⟩
  · rcases keyWaitPass_cases s with ⟨-, e⟩ | ⟨k, -, e⟩ <;> rw [e]
    · exact h
    · exact waitsAtItsInstruction_of_not_wait rfl
  · exact waitsAtItsInstruction_of_not_wait (nextWork_eq_unknown hn).2
  · obtain ⟨-, hw, hop⟩ := nextWork_eq_run hn
    rcases executeWith_next_wait hexec with ⟨hwait, -, -⟩ | ⟨x, rfl, ht⟩
    · exact waitsAtItsInstruction_of_not_wait (hwait.trans hw)
    · have hpc : t.pc = s.pc := (congrArg CoreState.pc ht).trans (BitVec.add_sub_cancel s.pc 2#16)
      have hmem : t.mem = s.mem := by rw [ht]; rfl
      have hreg : t.waitReg = x := by rw [ht]
      intro _
      rw [fetchWord_congr hpc hmem, hreg]
      exact hop

/-- Settles O24: a step keeps it, and no other command but load writes PC, memory, WAIT or WAITREG. -/
theorem keyWaitStaysAtItsInstruction : Obligations.KeyWaitStaysAtItsInstruction := by
  refine ⟨fun s t h hs => stepWith_next_waits h (stepWith_of_step_next hs), fun c s hload h => ?_⟩
  rcases afterCommand_cases c s with e | ⟨rnd, t, -, hs, e⟩ | ⟨rnd, f, -, -, e⟩ | ⟨rom, hc, e⟩ | ⟨-, e⟩ |
    ⟨k, p, -, e⟩ | ⟨levels, -, e⟩ <;> rw [e]
  · exact h
  · exact stepWith_next_waits h hs
  · exact waitsAtItsInstruction_of_eq h rfl rfl rfl rfl
  · exact absurd hc (hload rom)
  · exact waitsAtItsInstruction_of_eq h rfl rfl rfl rfl
  · rw [setInput_eq]
    exact waitsAtItsInstruction_of_eq h rfl rfl rfl rfl
  · rw [setInputs_eq]
    exact waitsAtItsInstruction_of_eq h rfl rfl rfl rfl

/-! ## Faults -/

/-- A fetch that faults names an address above 0xFFF (R94). -/
theorem fetchWord_eq_error {s : CoreState} {a : Nat} (h : s.fetchWord = .error a) : 0xFFF < a := by
  rcases fetchWord_cases s with ⟨-, e⟩ | ⟨-, e⟩
  · rw [e] at h
    cases h
  · rw [e] at h
    cases h
    exact lt_max_memSize s.pc.toNat

/-- The PC of a record is the one before the fetch (R215). -/
@[simp] theorem faultPC_advance (s : CoreState) : s.advance.faultPC = s.pc :=
  BitVec.add_sub_cancel s.pc 2#16

/-- A step command that faults records the fault in the state before it (R215). -/
theorem command_step_of_fault {rnd : Byte} {s : CoreState} {f : Fault} (hf : s.fault = none)
    (h : s.stepWith rnd = .fault f) : command (.step rnd) s = .faulted (s.recordFault f) := by
  rw [command, whileRunning_of_fault_none hf, commandStep, h]

/-- Settles O25: the fault is the fetch's, or it is a record of the instruction whose opcode was fetched. -/
theorem faultRecordIsPrecise : Obligations.FaultRecordIsPrecise := by
  intro rnd s f h
  rcases stepWith_fault h with ⟨a, hn, rfl⟩ | ⟨i, hn, hrec⟩
  · obtain ⟨hf, hfetch⟩ := nextWork_eq_fetchFault hn
    exact ⟨command_step_of_fault hf h, fetchWord_eq_error hfetch, rfl, hfetch⟩
  · obtain ⟨hf, -, hfetch⟩ := nextWork_eq_run hn
    refine ⟨command_step_of_fault hf h, ?_⟩
    rcases hrec with ⟨a, ha, rfl⟩ | ⟨k, hk, rfl⟩
    · exact ⟨ha, faultPC_advance s, hfetch⟩
    · exact ⟨hk, faultPC_advance s, hfetch⟩

/-- With FAULT set the guard refuses every command that it stands before (R216). -/
theorem whileRunning_of_fault {s : CoreState} {f : Fault} (h : s.fault = some f) (reply : Reply) :
    whileRunning s reply = .refused (.machineFaulted f) := by
  simp only [whileRunning, h]

/-- With FAULT set no command changes the state (R216). -/
theorem afterCommand_of_fault {s : CoreState} {f : Fault} (h : s.fault = some f) (c : Command) :
    afterCommand c s = s := by
  cases c <;> simp [afterCommand, command, whileRunning_of_fault h]

theorem runCommands_of_fault {s : CoreState} {f : Fault} (h : s.fault = some f) (cs : List Command) :
    runCommands cs s = s := by
  induction cs with
  | nil => rfl
  | cons c cs ih => rw [runCommands, List.foldl_cons, afterCommand_of_fault h]; exact ih

/-- Settles O26: the guard refuses the commands that change the state; the two reads have none. -/
theorem faultedMachineIsQuiescent : Obligations.FaultedMachineIsQuiescent := by
  intro s f hf
  refine ⟨fun n => ?_, fun c hpixels hsound => ?_, rfl, rfl, runCommands_of_fault hf⟩
  · have hw : s.nextWork = .frozen f := by rw [CoreState.nextWork, hf]
    exact cycle_of_frozen hw
  · cases c with
    | framebufferSnapshot => exact absurd rfl hpixels
    | isSoundActive => exact absurd rfl hsound
    | load | step | tickTimers | setInput | setInputs => exact whileRunning_of_fault hf _

/-- A run of commands that ends with FAULT = none began so, because FAULT is never cleared (R41). -/
theorem fault_none_of_safeRun {cs : List Command} {s : CoreState} (h : SafeRun cs s) : s.fault = none := by
  cases hf : s.fault with
  | none => rfl
  | some f =>
    rw [SafeRun, runCommands_of_fault hf, hf] at h
    cases h

theorem runCommands_append (cs ds : List Command) (s : CoreState) :
    runCommands (cs ++ ds) s = runCommands ds (runCommands cs s) :=
  List.foldl_append

/-- Settles O27: the second part of the run begins in the state that the first part left. -/
theorem safeRunIsSafeAllAlong : Obligations.SafeRunIsSafeAllAlong := by
  intro cs ds s h
  rw [SafeRun, runCommands_append] at h
  have hcs : SafeRun cs s := fault_none_of_safeRun h
  exact ⟨hcs, fault_none_of_safeRun hcs⟩

/-! ## Runs of the interface -/

/-- A step of the CORE that goes on found FAULT = none. -/
theorem fault_none_of_stepWith_next {rnd : Byte} {s t : CoreState} (h : s.stepWith rnd = .next t) :
    s.fault = none := by
  rcases stepWith_next h with ⟨hn, -⟩ | ⟨op, hn, -⟩ | ⟨i, hn, -⟩
  · exact (nextWork_eq_keyWait hn).1
  · exact (nextWork_eq_unknown hn).1
  · exact (nextWork_eq_run hn).1

/-- A step of the CORE that faults found FAULT = none. -/
theorem fault_none_of_stepWith_fault {rnd : Byte} {s : CoreState} {f : Fault}
    (h : s.stepWith rnd = .fault f) : s.fault = none := by
  rcases stepWith_fault h with ⟨a, hn, -⟩ | ⟨i, hn, -⟩
  · exact (nextWork_eq_fetchFault hn).1
  · exact (nextWork_eq_run hn).1

theorem afterCommand_step_of_next {rnd : Byte} {s t : CoreState} (h : s.stepWith rnd = .next t) :
    afterCommand (.step rnd) s = t := by
  rw [afterCommand, command, whileRunning_of_fault_none (fault_none_of_stepWith_next h), commandStep, h]

theorem afterCommand_step_of_fault {rnd : Byte} {s : CoreState} {f : Fault} (h : s.stepWith rnd = .fault f) :
    afterCommand (.step rnd) s = s.recordFault f := by
  rw [afterCommand, command_step_of_fault (fault_none_of_stepWith_fault h) h]

/-- A run of one step more, by what its first step answers. -/
theorem run_succ_of_next {M : Host.Core} {s u : M.State} (k : Nat) (h : M.step s = .next u) :
    M.run (k + 1) s = M.run k u := by
  rw [Host.Core.run, h]

theorem run_succ_of_fault {M : Host.Core} {s : M.State} {f : M.Fault} (k : Nat) (h : M.step s = .fault f) :
    M.run (k + 1) s = .fault f := by
  rw [Host.Core.run, h]

theorem run_succ_of_refused {M : Host.Core} {s : M.State} {r : M.Refusal} (k : Nat)
    (h : M.step s = .refused r) : M.run (k + 1) s = .refused r := by
  rw [Host.Core.run, h]

/-- A step(RND) command before a run of them. -/
theorem runCommands_step_cons (b : Byte) (bytes : List Byte) (s : CoreState) :
    runCommands ((b :: bytes).map Command.step) s =
      runCommands (bytes.map Command.step) (afterCommand (.step b) s) :=
  rfl

/-- The bytes that a run of the interface draws drive the same run of the CORE. -/
theorem bytes_of_run_next {k : Nat} {s t : State} (h : Sys2Proof.core.run k s = .next t) :
    ∃ bytes : List Byte, bytes.length = k ∧
      runCommands (bytes.map Command.step) s.toCoreState = t.toCoreState := by
  induction k generalizing s with
  | zero => cases h; exact ⟨[], rfl, rfl⟩
  | succ k ih =>
    cases hs : step s with
    | next u =>
      obtain ⟨bytes, hlen, hrun⟩ := ih ((run_succ_of_next (M := Sys2Proof.core) k hs).symm.trans h)
      refine ⟨Config.randomByte s.draws :: bytes, by rw [List.length_cons, hlen], ?_⟩
      rw [runCommands_step_cons, afterCommand_step_of_next (stepWith_of_step_next hs), hrun]
    | fault f => cases (run_succ_of_fault (M := Sys2Proof.core) k hs).symm.trans h
    | refused r => cases (run_succ_of_refused (M := Sys2Proof.core) k hs).symm.trans h

/-- The same of a run that faults: its last command records the fault. -/
theorem bytes_of_run_fault {k : Nat} {s : State} {f : Fault} (h : Sys2Proof.core.run k s = .fault f) :
    ∃ bytes : List Byte, bytes.length ≤ k ∧
      (runCommands (bytes.map Command.step) s.toCoreState).fault = some f := by
  induction k generalizing s with
  | zero => cases h
  | succ k ih =>
    cases hs : step s with
    | next u =>
      obtain ⟨bytes, hlen, hrun⟩ := ih ((run_succ_of_next (M := Sys2Proof.core) k hs).symm.trans h)
      refine ⟨Config.randomByte s.draws :: bytes, Nat.succ_le_succ hlen, ?_⟩
      rw [runCommands_step_cons, afterCommand_step_of_next (stepWith_of_step_next hs), hrun]
    | fault g =>
      cases (run_succ_of_fault (M := Sys2Proof.core) k hs).symm.trans h
      refine ⟨[Config.randomByte s.draws], Nat.succ_le_succ (Nat.zero_le k), ?_⟩
      have hcore : s.stepWith (Config.randomByte s.draws) = .fault f := by rw [← coreOutcome_step, hs]; rfl
      rw [runCommands_step_cons, afterCommand_step_of_fault hcore]
      rfl
    | refused r => cases (run_succ_of_refused (M := Sys2Proof.core) k hs).symm.trans h

/-- Settles O60: the two runs by induction over their steps; a step reads the drawn byte through the CORE's
step alone. -/
theorem interfaceRunsAreRunsOfTheCoreState : Obligations.InterfaceRunsAreRunsOfTheCoreState := by
  refine ⟨fun k s t => bytes_of_run_next, fun k s f => bytes_of_run_fault, fun s s' hcore hbyte => ?_⟩
  rw [coreOutcome_step, coreOutcome_step, ← hcore]
  by_cases hr : ∃ x kk, s.nextWork = .run (.rnd x kk)
  · rw [hbyte hr]
  · obtain ⟨-, -, -, ignoresRnd⟩ := stepDrawsItsRandomInput
    push Not at hr
    exact ignoresRnd _ _ s.toCoreState hr

end Sys2Proof.Laws
end

/-! The whole-machine rules of a step: how it moves PC, and which instructions write memory, VF, the stack, I and
WAIT (spec 10_state.md). -/

section
namespace Sys2Proof.Laws

open Sys2Proof.Machine

/-! ## What an instruction that goes on leaves -/

theorem core_of_goOn {s t : State} {c : CoreState} (h : s.goOn c = .next t) : t.toCoreState = c :=
  ((State.goOn_eq_next s t c).1 h).1

/-- A checked access that goes on leaves what its continuation makes of the bytes or of the memory. -/
theorem core_of_withAccess {α : Type} {i : Instr} {s t : State} {r : Except Nat α} {k : α → CoreState}
    (h : withAccess i s r k = .next t) : ∃ a, r = .ok a ∧ t.toCoreState = k a := by
  obtain ⟨a, ha, hcore, -⟩ := withAccess_eq_next.1 h
  exact ⟨a, ha, hcore⟩

@[simp] theorem setRegsFrom_pc (s : CoreState) (r : Nat) (bs : List Byte) :
    (s.setRegsFrom r bs).pc = s.pc := by
  rw [setRegsFrom_eq]

/-! ## PC (R26) -/

/-- A skip after the fetch moves PC by 4 when its condition holds, and by 2 when not. -/
theorem skipIf_advance_pc (s : CoreState) (c : Bool) :
    (s.advance.skipIf c).pc = if c then s.pc + 4#16 else s.pc + 2#16 := by
  rw [skipIf_eq]
  split
  · exact BitVec.add_assoc s.pc 2#16 2#16
  · rfl

/-- The sum of Bnnn fits in 16 bits, so it is the sum of the numbers (R127). -/
theorem toNat_addrOf_add_zext16 (nnn : BitVec 12) (b : Byte) :
    (addrOf nnn + zext16 b).toNat = nnn.toNat + b.toNat := by
  rw [BitVec.toNat_add, toNat_addrOf, toNat_zext16]
  have := nnn.isLt
  have := b.isLt
  omega

/-- PC after a call: the target, or untouched when the stack is full (R122). -/
theorem pushCall_pc (s : CoreState) (target : Word) :
    (s.pushCall target).1.pc = if s.sp.val < 16 then target else s.pc := by
  rcases pushCall_cases target s with ⟨h, e⟩ | ⟨j, p, h, -, e⟩
  · rw [e, if_neg (by omega)]
  · rw [e, if_pos (by omega)]

/-- PC after a return that found `j + 1` addresses on the stack: slot `j` (R120). -/
theorem popCall_of_succ {s : CoreState} {j : SlotIdx} (h : s.sp.val = j.val + 1) :
    s.popCall = ({ s with pc := s.stack.get j, sp := j.castSucc }, .none) := by
  rcases popCall_cases s with ⟨h0, -⟩ | ⟨i, p, hi, hp, e⟩
  · omega
  · obtain rfl : i = j := Fin.ext (by omega)
    obtain rfl : p = i.castSucc := Fin.ext hp
    exact e

/-- A return on an empty stack is the underflow diagnostic and nothing else (R120). -/
theorem popCall_of_empty {s : CoreState} (h : s.sp.val = 0) : s.popCall = (s, .stackUnderflow) := by
  rcases popCall_cases s with ⟨-, e⟩ | ⟨j, p, hj, -, -⟩
  · exact e
  · omega

/-- A step command faults only when the step does, and then records the fault in the state before it. -/
theorem command_step_eq_faulted {rnd : Byte} {s t : CoreState} (h : command (.step rnd) s = .faulted t) :
    ∃ f, t = s.recordFault f := by
  cases hf : s.fault with
  | some f => cases (whileRunning_of_fault hf _).symm.trans h
  | none =>
    rw [command, whileRunning_of_fault_none hf, commandStep] at h
    split at h
    case h_2 f _ => cases h; exact ⟨f, rfl⟩
    all_goals cases h

/-- The commands that are not steps leave PC alone. -/
theorem afterCommand_pc {c : Command} (s : CoreState) (hstep : ∀ rnd, c ≠ .step rnd) :
    (afterCommand c s).pc = s.pc := by
  rcases afterCommand_cases c s with e | ⟨rnd, _, hc, -⟩ | ⟨rnd, _, hc, -⟩ | ⟨rom, -, e⟩ | ⟨-, e⟩ |
    ⟨k, p, -, e⟩ | ⟨levels, -, e⟩
  · rw [e]
  · exact absurd hc (hstep rnd)
  · exact absurd hc (hstep rnd)
  · rw [e, loadRom_eq]
  · rw [e]
    rfl
  · rw [e, setInput_eq]
  · rw [e, setInputs_eq]

/-- Settles O16: each instruction's row is read off the state it goes on with; the fetch's increment is in
`s.advance`. -/
theorem programCounterMovesByTheTable : Obligations.ProgramCounterMovesByTheTable := by
  refine ⟨fun s t h => ?_, fun c s hstep => ?_, fun rnd s t h => ?_⟩
  · rcases step_next h with ⟨hw, rfl⟩ | ⟨op, hw, rfl⟩ | ⟨i, hw, hexec⟩
    · rw [hw]
      rcases keyWaitPass_cases s.toCoreState with ⟨hl, e⟩ | ⟨k, hl, e⟩ <;> simp [e, hl]
    · rw [hw]
      rfl
    · rw [hw]
      cases i
      case seImm | sneImm | seReg | sneReg =>
        refine (congrArg CoreState.pc (core_of_goOn hexec)).trans ((skipIf_advance_pc _ _).trans ?_)
        simp
      case skp | sknp =>
        obtain ⟨k, hk, hcore, -⟩ := skipOnKey_eq_next hexec
        exact ⟨k, hk, (congrArg CoreState.pc hcore).trans ((skipIf_advance_pc _ _).trans (by simp))⟩
      case jp nnn =>
        exact (congrArg (fun c => c.pc.toNat) (core_of_goOn hexec)).trans (toNat_addrOf nnn)
      case call nnn =>
        have hpc := (congrArg CoreState.pc (core_of_goOn hexec)).trans (pushCall_pc _ _)
        show if s.sp.val < 16 then _ else _
        split
        case isTrue hsp => rw [hpc, CoreState.advance_sp, if_pos hsp, toNat_addrOf]
        case isFalse hsp => rw [hpc, CoreState.advance_sp, if_neg hsp, CoreState.advance_pc]
      case ret =>
        have hcore := core_of_goOn hexec
        show if s.sp.val = 0 then _ else _
        split
        case isTrue hsp =>
          rw [hcore, popCall_of_empty (s := s.advance) hsp, CoreState.advance_pc]
        case isFalse hsp =>
          obtain ⟨j, hj⟩ : ∃ j : SlotIdx, s.sp.val = j.val + 1 := 
            ⟨⟨s.sp.val - 1, by omega⟩, (Nat.sub_one_add_one hsp).symm⟩
          exact ⟨j, hj, by rw [hcore, popCall_of_succ (s := s.advance) hj]; rfl⟩
      case jpV0 nnn =>
        exact (congrArg (fun c => c.pc.toNat) (core_of_goOn hexec)).trans
          (toNat_addrOf_add_zext16 nnn (s.getV 0))
      case ldKey =>
        exact (congrArg CoreState.pc (core_of_goOn hexec)).trans (BitVec.add_sub_cancel s.pc 2#16)
      case drw | ldB | store =>
        obtain ⟨a, -, hcore⟩ := core_of_withAccess hexec
        exact congrArg CoreState.pc hcore
      case load =>
        obtain ⟨a, -, hcore⟩ := core_of_withAccess hexec
        exact (congrArg CoreState.pc hcore).trans (setRegsFrom_pc _ _ _)
      all_goals exact congrArg CoreState.pc (core_of_goOn hexec)
  · exact afterCommand_pc s hstep
  · obtain ⟨f, rfl⟩ := command_step_eq_faulted h
    rfl

/-! ## Memory (R50, R57, C7) -/

/-- A read after a checked write that succeeds: the run of bytes in its range, every other byte as before. -/
theorem read_writeChecked {m m' : Memory} {base k : Nat} {bs : List Byte} (h : Memory.wf m = true)
    (hw : Memory.writeChecked m base bs = .ok m') :
    Memory.read m' k =
      if base ≤ k ∧ k < base + bs.length then bs.getD (k - base) 0#8 else Memory.read m k := by
  rcases writeChecked_cases m base bs with ⟨hr, e⟩ | ⟨-, -, e⟩ <;> rw [e] at hw <;> cases hw
  rcases hr with h0 | hr
  · obtain rfl : bs = [] := List.eq_nil_of_length_eq_zero h0
    rw [Memory.writeAll, if_neg (by simp)]
  · exact read_writeAll h hr

/-- A checked write changes no byte outside its range. -/
theorem mem_range_of_read_ne {m m' : Memory} {base k : Nat} {bs : List Byte} (h : Memory.wf m = true)
    (hw : Memory.writeChecked m base bs = .ok m') (hne : Memory.read m' k ≠ Memory.read m k) :
    base ≤ k ∧ k < base + bs.length := by
  by_contra hk
  exact hne (by rw [read_writeChecked h hw, if_neg hk])

@[simp] theorem keyWaitPass_mem (s : CoreState) : (keyWaitPass s).mem = s.mem := by
  rcases keyWaitPass_cases s with ⟨-, e⟩ | ⟨k, -, e⟩ <;> simp [e]

/-- Settles O18: only Fx33 and Fx55 leave another memory, and each writes the range of its checked access. -/
theorem onlyTwoInstructionsWriteMemory : Obligations.OnlyTwoInstructionsWriteMemory := by
  intro s t a hwf h hne
  have hmem : t.mem ≠ s.mem := fun e => hne (by rw [CoreState.readByte, e]; rfl)
  rcases step_next h with ⟨-, rfl⟩ | ⟨op, -, rfl⟩ | ⟨i, hw, hexec⟩
  · exact absurd (keyWaitPass_mem s.toCoreState) hmem
  · exact absurd rfl hmem
  · rcases (exec_next_keeps hexec).mem hmem with ⟨x, rfl⟩ | ⟨x, rfl⟩
    · obtain ⟨m, hm, hcore⟩ := core_of_withAccess hexec
      have hrange := mem_range_of_read_ne hwf hm (k := a) (by simpa [CoreState.readByte, hcore] using hne)
      exact .inl ⟨x, hw, hrange.1, Nat.le_of_lt_succ hrange.2⟩
    · obtain ⟨m, hm, hcore⟩ := core_of_withAccess hexec
      have hrange := mem_range_of_read_ne hwf hm (k := a) (by simpa [CoreState.readByte, hcore] using hne)
      rw [length_firstRegs] at hrange
      exact .inr ⟨x, hw, hrange.1, Nat.le_of_lt_succ hrange.2⟩

/-! ## VF (R23) -/

/-- A register that a write of Vx changed is Vx. -/
theorem eq_of_getV_setV_ne {s : CoreState} {x r : RegIdx} {b : Byte} (h : (s.setV x b).getV r ≠ s.getV r) :
    x = r := by
  by_contra hx
  exact h (getV_setV_ne s x r b (Ne.symm hx))

/-- A block load from V0 to Vx that changed VF reached it, so x = F. -/
theorem eq_F_of_getV_setRegsFrom_ne {s : CoreState} {x : RegIdx} {bs : List Byte}
    (hlen : bs.length = x.val + 1) (h : (s.setRegsFrom 0 bs).getV 0xF ≠ s.getV 0xF) : x = 0xF := by
  rw [getV_setRegsFrom] at h
  by_contra hx
  refine h (if_neg fun hr => hx (Fin.ext ?_))
  have := x.isLt
  have h15 : ((0xF : RegIdx).val) = 15 := rfl
  omega

theorem readChecked_eq_ok {m : Memory} {base n : Nat} {bs : List Byte}
    (h : Memory.readChecked m base n = .ok bs) : bs = Memory.readAll m base n := by
  rcases readChecked_cases m base n with ⟨-, e⟩ | ⟨-, -, e⟩ <;> rw [e] at h <;> cases h
  rfl

@[simp] theorem pushCall_v (s : CoreState) (target : Word) : (s.pushCall target).1.v = s.v := by
  rcases pushCall_cases target s with ⟨-, e⟩ | ⟨j, p, -, -, e⟩ <;> rw [e]

@[simp] theorem popCall_v (s : CoreState) : s.popCall.1.v = s.v := by
  rcases popCall_cases s with ⟨-, e⟩ | ⟨j, p, -, -, e⟩ <;> rw [e]

/-- Settles O19: an instruction outside the list leaves the register file, and one that writes Vx alone
changes VF only as Vx. -/
theorem flagRegisterWriters : Obligations.FlagRegisterWriters := by
  intro s t h hne
  rcases step_next h with ⟨hw, rfl⟩ | ⟨op, hw, rfl⟩ | ⟨i, hw, hexec⟩ <;> rw [hw]
  · rcases keyWaitPass_cases s.toCoreState with ⟨-, e⟩ | ⟨k, -, e⟩
    · exact absurd (congrArg (fun c => c.getV 0xF) e) hne
    · rw [e] at hne
      exact eq_of_getV_setV_ne hne
  · exact absurd rfl hne
  · cases i
    case addReg | sub | shr | subn | shl | drw => trivial
    case ldImm | addImm | ldReg | orReg | andReg | xorReg | rnd | ldFromDT =>
      rw [core_of_goOn hexec] at hne
      exact eq_of_getV_setV_ne (s := s.advance) hne
    case load x =>
      obtain ⟨bs, hbs, hcore⟩ := core_of_withAccess hexec
      rw [hcore] at hne
      refine eq_F_of_getV_setRegsFrom_ne (s := s.advance) ?_ hne
      rw [readChecked_eq_ok hbs, length_readAll]
    case skp | sknp =>
      obtain ⟨k, -, hcore, -⟩ := skipOnKey_eq_next hexec
      rw [hcore, skipIf_eq] at hne
      exact absurd rfl hne
    case ldB | store =>
      obtain ⟨m, -, hcore⟩ := core_of_withAccess hexec
      rw [hcore] at hne
      exact absurd rfl hne
    case call nnn =>
      rw [core_of_goOn hexec] at hne
      exact absurd (getV_congr (pushCall_v s.advance (addrOf nnn)) 0xF) hne
    case ret =>
      rw [core_of_goOn hexec] at hne
      exact absurd (getV_congr (popCall_v s.advance) 0xF) hne
    case seImm | sneImm | seReg | sneReg =>
      rw [core_of_goOn hexec, skipIf_eq] at hne
      exact absurd rfl hne
    all_goals
      rw [core_of_goOn hexec] at hne
      exact absurd rfl hne

/-! ## The stack (R28, R29) -/

@[simp] theorem keyWaitPass_sp (s : CoreState) : (keyWaitPass s).sp = s.sp := by
  rcases keyWaitPass_cases s with ⟨-, e⟩ | ⟨k, -, e⟩ <;> simp [e]

@[simp] theorem keyWaitPass_stack (s : CoreState) : (keyWaitPass s).stack = s.stack := by
  rcases keyWaitPass_cases s with ⟨-, e⟩ | ⟨k, -, e⟩ <;> simp [e]

@[simp] theorem keyWaitPass_idx (s : CoreState) : (keyWaitPass s).idx = s.idx := by
  rcases keyWaitPass_cases s with ⟨-, e⟩ | ⟨k, -, e⟩ <;> simp [e]

/-- A push that moved SP or a slot moved SP up by 1 and put PC into the slot that SP named (R122). -/
theorem pushCall_moves (s : CoreState) (target : Word) :
    ((s.pushCall target).1.sp ≠ s.sp → (s.pushCall target).1.sp.val = s.sp.val + 1) ∧
    ∀ j : SlotIdx, (s.pushCall target).1.stack.get j ≠ s.stack.get j →
      s.sp.val = j.val ∧ (s.pushCall target).1.stack.get j = s.pc := by
  rcases pushCall_cases target s with ⟨-, e⟩ | ⟨i, p, hi, hp, e⟩ <;> rw [e]
  · exact ⟨fun h => absurd rfl h, fun j h => absurd rfl h⟩
  · refine ⟨fun _ => hp.trans (congrArg (· + 1) hi.symm), fun j h => ?_⟩
    rw [get_set_slot] at h ⊢
    split at h
    case isTrue hj => subst hj; exact ⟨hi, if_pos rfl⟩
    case isFalse => exact absurd rfl h

/-- A pop keeps every slot (D19), and moves SP by 1 down when it moves it (R120). -/
theorem popCall_moves (s : CoreState) :
    (s.popCall.1.sp ≠ s.sp → s.sp.val = s.popCall.1.sp.val + 1) ∧ s.popCall.1.stack = s.stack := by
  rcases popCall_cases s with ⟨-, e⟩ | ⟨i, p, hi, hp, e⟩ <;> rw [e]
  · exact ⟨fun h => absurd rfl h, rfl⟩
  · exact ⟨fun _ => hi.trans (congrArg (· + 1) hp.symm), rfl⟩

/-- Settles O20: only a call and a return are writers of the stack, and each moves it as its push or its
pop does. -/
theorem stackMovesOnlyByCallAndReturn : Obligations.StackMovesOnlyByCallAndReturn := by
  intro s t h
  rcases step_next h with ⟨-, rfl⟩ | ⟨op, -, rfl⟩ | ⟨i, hw, hexec⟩
  · simp
  · simp
  · by_cases hmoved : t.sp ≠ s.sp ∨ t.stack ≠ s.stack
    · rcases (exec_next_keeps hexec).stack hmoved with ⟨nnn, rfl⟩ | rfl
      · obtain ⟨hsp, hslot⟩ := pushCall_moves s.advance (addrOf nnn)
        rw [core_of_goOn hexec]
        exact ⟨fun hne => .inl ⟨⟨nnn, hw⟩, hsp hne⟩, fun j hne => ⟨⟨nnn, hw⟩, hslot j hne⟩⟩
      · obtain ⟨hsp, hstack⟩ := popCall_moves s.advance
        rw [core_of_goOn hexec]
        exact ⟨fun hne => .inr ⟨hw, hsp hne⟩, fun j hne => absurd (congrArg (·.get j) hstack) hne⟩
    · push Not at hmoved
      obtain ⟨hsp, hstack⟩ := hmoved
      exact ⟨fun hne => absurd hsp hne, fun j hne => absurd (congrArg (·.get j) hstack) hne⟩

/-! ## I and WAIT (R27, R38) -/

/-- Settles O21: the writers of I are those of the execute phase; WAIT is set by Fx0A and cleared by the
key-wait pass that found a latch. -/
theorem indexAndWaitHaveNamedWriters : Obligations.IndexAndWaitHaveNamedWriters := by
  intro s t h
  rcases stepWith_next (stepWith_of_step_next h) with ⟨hw, ht⟩ | ⟨op, hw, ht⟩ | ⟨i, hw, hexec⟩
  · obtain ⟨-, hwait⟩ := nextWork_eq_keyWait hw
    refine ⟨fun hne => ?_, fun hwait' => ?_, fun _ hcleared hlatch => ?_⟩
    · rw [ht] at hne
      exact absurd (keyWaitPass_idx _) hne
    · cases hwait.symm.trans hwait'
    · have hpass : keyWaitPass s.toCoreState = s.toCoreState := by rw [keyWaitPass, hlatch]
      rw [ht, hpass, hwait] at hcleared
      cases hcleared
  · obtain ⟨-, hwait⟩ := nextWork_eq_unknown hw
    rw [ht]
    refine ⟨fun hne => absurd rfl hne, fun _ hset => ?_, fun hwait' => ?_⟩
    · cases hwait.symm.trans hset
    · cases hwait.symm.trans hwait'
  · obtain ⟨-, hwait, -⟩ := nextWork_eq_run hw
    refine ⟨fun hne => ?_, fun _ hset => ?_, fun hwait' => ?_⟩
    · simpa only [hw, Work.run.injEq] using (executeWith_next_keeps hexec).idx hne
    · rcases executeWith_next_wait hexec with ⟨hsame, -, -⟩ | ⟨x, rfl, ht⟩
      · cases (hsame.trans hwait).symm.trans hset
      · rw [hw, ht]
    · cases hwait.symm.trans hwait'

end Sys2Proof.Laws
end

/-! The draw (spec 41_display.md R111, R112): the touched pixels, the collision flag, and what follows for a
second draw and for wrapped coordinates. -/

section
namespace Sys2Proof.Laws

open Sys2Proof.Machine

/-! ## The pixels a draw touches -/

/-- The bytes of a run read as the addresses they stand at. -/
theorem getD_readAll {m : Memory} {a n r : Nat} (h : r < n) :
    (Memory.readAll m a n).getD r 0#8 = Memory.read m (a + r) := by
  rw [List.getD_eq_getElem?_getD, getElem?_readAll, if_pos h, Option.getD_some]

/-- The pixels that `Dxyn` touches from the state `s` (R111). -/
def drawnPixels (x y : RegIdx) (rows : List Byte) (s : CoreState) : List (Column × Row) :=
  spritePixels ((s.getV x).toNat % 64) ((s.getV y).toNat % 32) rows

theorem drawSprite_eq (x y : RegIdx) (rows : List Byte) (s : CoreState) :
    drawSprite x y rows s = (s.setFB (xorPixels s.fb (drawnPixels x y rows s))).setV vf
      (flagByte (collision s.fb (drawnPixels x y rows s))) := rfl

/-- The touched pixels in terms of the sprite's bytes in memory (R111). -/
theorem mem_drawnPixels {x y : RegIdx} {n : Nat} {s : CoreState} {px : Column} {py : Row} :
    (px, py) ∈ drawnPixels x y (Memory.readAll s.mem s.idx.toNat n) s ↔
      ∃ r c : Nat, r < n ∧ c < 8 ∧ (s.readByte (s.idx.toNat + r)).getLsbD (7 - c) = true ∧
        px.val = ((s.getV x).toNat + c) % 64 ∧ py.val = ((s.getV y).toNat + r) % 32 := by
  rw [drawnPixels, mem_spritePixels, length_readAll]
  refine exists_congr fun r => exists_congr fun c => and_congr_right fun hr => and_congr_right fun _ => ?_
  rw [getD_readAll hr, CoreState.readByte, Fin.ext_iff, Fin.ext_iff, Fin.val_ofNat, Fin.val_ofNat,
    Nat.mod_add_mod, Nat.mod_add_mod]

/-- A draw changes pixels and VF alone. -/
theorem drawSprite_onlyChanges (x y : RegIdx) (rows : List Byte) (s : CoreState) :
    OnlyChanges (fun p => p = .v 0xF ∨ ∃ px py, p = .pixel px py) s (drawSprite x y rows s) := by
  intro p hp
  cases p
  case v r => exact getV_setV_ne _ vf r _ fun e => hp (.inl (congrArg Part.v e))
  case pixel px py => exact absurd (.inr ⟨px, py, rfl⟩) hp
  all_goals rfl

theorem pixel_drawSprite (x y : RegIdx) (rows : List Byte) (s : CoreState) (px : Column) (py : Row) :
    pixel (drawSprite x y rows s).fb px py =
      if (px, py) ∈ drawnPixels x y rows s then !pixel s.fb px py else pixel s.fb px py := by
  rw [drawSprite_eq, CoreState.setV_fb, CoreState.setFB_fb, pixel_xorPixels]

/-- VF after a draw is its collision flag (R111). -/
theorem getV_F_drawSprite (x y : RegIdx) (rows : List Byte) (s : CoreState) :
    (drawSprite x y rows s).getV 0xF = flagByte (collision s.fb (drawnPixels x y rows s)) :=
  getV_setV_same _ vf _

theorem flagByte_eq_one {b : Bool} : flagByte b = 1#8 ↔ b = true := by cases b <;> decide

theorem flagByte_eq_zero {b : Bool} : flagByte b = 0#8 ↔ b = false := by cases b <;> decide

theorem readChecked_of_inside {m : Memory} {base n : Nat} (h : n = 0 ∨ base + n ≤ 0x1000) :
    Memory.readChecked m base n = .ok (Memory.readAll m base n) := by
  rw [Memory.readChecked, firstOutside_eq_none.2 h]

/-- An instruction whose checked access is in range completes with what its continuation makes of it. -/
theorem completes_withAccess {α : Type} {w : Word} {i : Instr} {s : CoreState} {P : CoreState → Prop}
    {r : Except Nat α} {a : α} {k : α → CoreState} (hw : decodeWord w = .ok i) (hd : reported i s = .none)
    (he : ∀ n, exec i { toCoreState := s, draws := n } = withAccess i { toCoreState := s, draws := n } r k)
    (hr : r = .ok a) (hp : P (k a)) : Completes w i s .none P :=
  completes_of_goOn hw hd (fun n => by rw [he, hr, withAccess_ok]) hp

/-- Settles O29: the touched pixels are those of the sprite's bytes in memory. -/
theorem drawInvertsSpritePixels : Obligations.DrawInvertsSpritePixels := by
  intro x y n s h
  refine completes_withAccess (k := fun rows => drawSprite x y rows s)
    (decodeWord_encode (i := .drw x y n) rfl) rfl (fun _ => rfl) (readChecked_of_inside (m := s.mem) h) ?_
  simp only [← mem_drawnPixels, pixel_drawSprite, getV_F_drawSprite, flagByte_eq_one, flagByte_eq_zero]
  refine ⟨fun px py hm => if_pos hm, fun px py hm => if_neg hm, collision_eq_true.2, fun hn => ?_,
    drawSprite_onlyChanges x y _ s⟩
  exact Bool.eq_false_iff.2 fun hc => hn (collision_eq_true.1 hc)

/-! ## A second draw -/

/-- What a draw that goes on has read, and the state it leaves. -/
theorem exec_drw_eq_next {x y : RegIdx} {n : Fin 16} {s t : State} :
    exec (.drw x y n) s = .next t ↔
      ∃ rows, Memory.readChecked s.mem s.idx.toNat n.val = .ok rows ∧
        t.toCoreState = drawSprite x y rows s.toCoreState ∧ t.draws = s.draws :=
  withAccess_eq_next

/-- With x and y other than F a draw keeps its own coordinates, so a second one touches the same pixels. -/
theorem drawnPixels_drawSprite {x y : RegIdx} (hx : x ≠ 0xF) (hy : y ≠ 0xF) (rows : List Byte)
    (s : CoreState) : drawnPixels x y rows (drawSprite x y rows s) = drawnPixels x y rows s := by
  have hVx : (drawSprite x y rows s).getV x = s.getV x := getV_setV_ne _ vf x _ hx
  have hVy : (drawSprite x y rows s).getV y = s.getV y := getV_setV_ne _ vf y _ hy
  rw [drawnPixels, hVx, hVy, drawnPixels]

/-- A touched pixel is on after the draw exactly when the draw lit it; an untouched one it cannot light. -/
theorem collision_drawSprite {x y : RegIdx} {rows : List Byte} {s : CoreState} :
    collision (drawSprite x y rows s).fb (drawnPixels x y rows s) = true ↔
      ∃ px py, pixel s.fb px py = false ∧ pixel (drawSprite x y rows s).fb px py = true := by
  rw [collision_eq_true]
  refine exists_congr fun px => exists_congr fun py => ?_
  rw [pixel_drawSprite]
  by_cases hm : (px, py) ∈ drawnPixels x y rows s
  · simp [hm]
  · simp [hm]

/-- Settles O30: the second draw reads the same bytes and touches the same pixels, each inverted twice. -/
theorem drawTwiceRestoresTheScreen : Obligations.DrawTwiceRestoresTheScreen := by
  intro x y n s t hx hy h
  obtain ⟨rows, hrows, ht, -⟩ := exec_drw_eq_next.1 h
  have hmem : t.mem = s.mem := by rw [ht]; rfl
  have hidx : t.idx = s.idx := by rw [ht]; rfl
  refine ⟨{ t with toCoreState := drawSprite x y rows t.toCoreState },
    exec_drw_eq_next.2 ⟨rows, by rw [hmem, hidx, hrows], rfl, rfl⟩, fun px py => ?_, ?_⟩
  · simp only [ht, pixel_drawSprite, drawnPixels_drawSprite hx hy]
    split
    · exact Bool.not_not _
    · rfl
  · simp only [ht, getV_F_drawSprite, drawnPixels_drawSprite hx hy, flagByte_eq_one, flagByte_eq_zero]
    exact ⟨collision_drawSprite.2, fun hn => Bool.eq_false_iff.2 fun hc => hn (collision_drawSprite.1 hc)⟩

/-- Refutes O31: the sprite 0x80 drawn over the one pixel that is on only clears it, so the second draw finds no
pixel on and leaves VF = 0, although the sprite has a set bit (log entry 28). -/
theorem not_secondDrawCollidesForEverySprite : ¬ Obligations.SecondDrawCollidesForEverySprite := by
  intro h
  have hiff := h 0 1 1
    { CoreState.reset with
      idx := 0x300#16, mem := [(0x300, 0x80#8)], fb := setPixel blankScreen 0 0 true, draws := 0 }
    _ _ (by decide) (by decide) rfl rfl
  exact absurd (hiff.2 ⟨0, by decide, by decide⟩) (by decide)

/-! ## Wrapped coordinates -/

/-- The touched pixels depend on the coordinates modulo 64 and 32 alone. -/
theorem drawSprite_congr {x y x' y' : RegIdx} {s : CoreState}
    (hx : (s.getV x).toNat % 64 = (s.getV x').toNat % 64) (hy : (s.getV y).toNat % 32 = (s.getV y').toNat % 32)
    (rows : List Byte) : drawSprite x y rows s = drawSprite x' y' rows s := by
  rw [drawSprite_eq, drawSprite_eq, drawnPixels, drawnPixels, hx, hy]

/-- Settles O32: the access does not depend on the coordinates, and the drawn sprite on their residues alone. -/
theorem drawDependsOnWrappedCoordinates : Obligations.DrawDependsOnWrappedCoordinates := by
  intro x y x' y' n s t hx hy h
  obtain ⟨rows, hrows, ht, hdraws⟩ := exec_drw_eq_next.1 h
  exact exec_drw_eq_next.2 ⟨rows, hrows, ht.trans (drawSprite_congr hx hy rows), hdraws⟩

end Sys2Proof.Laws
end

/-! Control transfer (spec 42_control_flow.md, 40_cycle.md R96): the no-op, the return and the computed jump. -/

section
namespace Sys2Proof.Laws

open Sys2Proof.Machine

/-- Settles O33: 0nnn goes on with the state it found. -/
theorem sysDoesNothing : Obligations.SysDoesNothing := by
  intro nnn s hcls hret
  have hdec : decodeWord (opNNN 0x0#4 nnn) = .ok (.sys nnn) :=
    decodeWord_encode (i := .sys nnn) (by simp [Instr.wf, hcls, hret])
  exact completes_of_goOn (t := s) hdec rfl (fun _ => rfl) (onlyChanges_self _ s)

/-- A pop changes PC and SP alone: the popped slot stays (D19). -/
theorem pop_onlyChanges (s : CoreState) (a : Word) (p : Fin 17) :
    OnlyChanges (fun q => q = .pc ∨ q = .sp) s { s with pc := a, sp := p } := by
  intro q hq
  cases q
  case pc => exact absurd (.inl rfl) hq
  case sp => exact absurd (.inr rfl) hq
  all_goals rfl

/-- 00EE completes with what the pop answers: its state and its diagnostic. -/
theorem completes_ret {s t : CoreState} {d : Diag} {P : CoreState → Prop} (h : s.popCall = (t, d))
    (hp : P t) : Completes 0x00EE#16 .ret s d P := by
  refine completes_of_goOn (decodeWord_encode (i := .ret) rfl) (congrArg Prod.snd h) (fun n => ?_) hp
  exact congrArg (fun r => State.goOn { toCoreState := s, draws := n } r.1) h

/-- Settles O34: the two cases of the pop, empty stack and top slot `j`. -/
theorem returnPopsOrUnderflows : Obligations.ReturnPopsOrUnderflows := by
  refine fun s => ⟨fun hempty => ?_, fun j hj => ?_⟩
  · exact completes_ret (popCall_of_empty hempty) (onlyChanges_self _ s)
  · exact completes_ret (popCall_of_succ hj) ⟨rfl, rfl, pop_onlyChanges s _ _⟩

/-- Settles O37: the call leaves PC in slot `j` with SP = j + 1, and the return reads just these two. -/
theorem returnAfterCallComesBack : Obligations.ReturnAfterCallComesBack := by
  intro nnn s t u hsp hcall hstack hptr
  obtain ⟨j, hj⟩ : ∃ j : SlotIdx, s.sp.val = j.val := ⟨⟨s.sp.val, hsp⟩, rfl⟩
  have ht := core_of_goOn hcall
  rw [pushCall_of_free hj] at ht
  rw [ht] at hstack hptr
  have hpop := popCall_of_succ (s := u.toCoreState) (j := j) (by rw [hptr]; rfl)
  refine ⟨_, rfl, ?_, ?_⟩
  · rw [hpop, hstack]
    exact (get_set_slot s.stack j j s.pc).trans (if_pos rfl)
  · rw [hpop]
    exact Fin.ext hj.symm

/-- Settles O39: Bnnn goes on with the sum in PC. -/
theorem computedJumpAddsV0 : Obligations.ComputedJumpAddsV0 := by
  intro nnn s
  exact completes_of_goOn (t := s.setPC (addrOf nnn + zext16 (s.getV 0)))
    (decodeWord_encode (i := .jpV0 nnn) rfl) rfl (fun _ => rfl)
    ⟨toNat_addrOf_add_zext16 nnn (s.getV 0), setPC_onlyChanges_pc s _⟩

end Sys2Proof.Laws
end

/-! The random byte (spec 43_immediate.md R143) and the register ALU (44_alu.md). -/

section
namespace Sys2Proof.Laws

open Sys2Proof.Machine

/-- Settles O41: with the given byte and with the drawn one, Cxkk is the one write `execRndWith`. -/
theorem randomIsMaskedByImmediate : Obligations.RandomIsMaskedByImmediate := by
  intro x kk s
  refine ⟨decodeWord_encode (i := .rnd x kk) rfl, rfl, fun r => ?_, fun n => ?_⟩
  · exact ⟨execRndWith r x kk s, rfl, getV_setV_same s x _, setV_onlyChanges_v s x _⟩
  · exact ⟨execRndWith (Config.randomByte n) x kk s, rfl, getV_setV_same s x _, setV_onlyChanges_v s x _⟩

/-- An instruction whose meaning writes `b` to Vx completes with it there and nothing else changed. -/
theorem completes_setV {i : Instr} {s : CoreState} {x : RegIdx} {b : Byte} (hwf : i.wf = true)
    (hd : reported i s = .none)
    (he : ∀ n, exec i { toCoreState := s, draws := n } =
      State.goOn { toCoreState := s, draws := n } (s.setV x b)) :
    Completes (encode i) i s .none fun t => t.getV x = b ∧ OnlyChanges (fun p => p = .v x) s t :=
  completes_of_goOn (decodeWord_encode hwf) hd he ⟨getV_setV_same s x b, setV_onlyChanges_v s x b⟩

/-- Settles O42: each of the four is one write of Vx. -/
theorem moveAndLogicWriteOnlyVx : Obligations.MoveAndLogicWriteOnlyVx := by
  intro x y s
  refine ⟨?ldReg, ?orReg, ?andReg, ?xorReg⟩
  case ldReg => exact completes_setV (i := .ldReg x y) rfl rfl fun _ => rfl
  case orReg => exact completes_setV (i := .orReg x y) rfl rfl fun _ => rfl
  case andReg => exact completes_setV (i := .andReg x y) rfl rfl fun _ => rfl
  case xorReg => exact completes_setV (i := .xorReg x y) rfl rfl fun _ => rfl

/-- A flag and a result change Vx and VF alone. -/
theorem setFlagThenResult_onlyChanges (s : CoreState) (flag : Bool) (x : RegIdx) (result : Byte) :
    OnlyChanges (fun p => p = .v x ∨ p = .v 0xF) s (s.setFlagThenResult flag x result) := by
  intro p hp
  cases p
  case v r =>
    have hx : r ≠ x := fun e => hp (.inl (congrArg Part.v e))
    have hF : r ≠ vf := fun e => hp (.inr (congrArg Part.v e))
    exact (getV_setFlagThenResult s flag x r result).trans ((if_neg hx).trans (if_neg hF))
  all_goals rfl

/-- An instruction whose meaning writes a flag and then a result completes with the result in Vx and, for x
other than F, the flag in VF (R160). -/
theorem completes_setFlagThenResult {i : Instr} {s : CoreState} {x : RegIdx} {flag : Bool} {result : Byte}
    (hwf : i.wf = true) (hd : reported i s = .none)
    (he : ∀ n, exec i { toCoreState := s, draws := n } =
      State.goOn { toCoreState := s, draws := n } (s.setFlagThenResult flag x result)) :
    Completes (encode i) i s .none fun t =>
      t.getV x = result ∧ (x ≠ 0xF → t.getV 0xF = flagByte flag) ∧
      OnlyChanges (fun p => p = .v x ∨ p = .v 0xF) s t := by
  refine completes_of_goOn (decodeWord_encode hwf) hd he
    ⟨?_, fun hx => ?_, setFlagThenResult_onlyChanges s flag x result⟩
  · rw [getV_setFlagThenResult, if_pos rfl]
  · rw [getV_setFlagThenResult, if_neg (Ne.symm hx)]
    exact if_pos rfl

/-- An instruction that completes with a property completes with each that follows from it. -/
theorem completes_mono {w : Word} {i : Instr} {s : CoreState} {d : Diag} {P Q : CoreState → Prop}
    (h : Completes w i s d P) (himp : ∀ t, P t → Q t) : Completes w i s d Q := by
  obtain ⟨hw, hd, t, he, hP⟩ := h
  exact ⟨hw, hd, t, he, himp t hP⟩

/-- A flag that decides a proposition. -/
theorem flagByte_decide (p : Prop) [Decidable p] : flagByte (decide p) = if p then 1#8 else 0#8 := by
  by_cases h : p <;> simp [flagByte, h]

/-- The difference of bytes is that of the numbers, taken from 256 more (R156). -/
theorem toNat_sub_byte (a b : Byte) : (a - b).toNat = (256 + a.toNat - b.toNat) % 256 := by
  rw [BitVec.toNat_sub]
  have := b.isLt
  congr 1
  omega

/-- Settles O43: the byte operations are those of the numbers modulo 256, and the flags decide the carry and
the borrow. -/
theorem addAndSubtractWrapAndFlag : Obligations.AddAndSubtractWrapAndFlag := by
  refine fun x y s => ⟨?add, ?sub, ?subn⟩
  case add =>
    refine completes_mono (completes_setFlagThenResult (i := .addReg x y) (x := x)
      (flag := carry (s.getV x) (s.getV y)) (result := s.getV x + s.getV y) rfl rfl fun _ => rfl) ?_
    rintro t ⟨hx, hF, hframe⟩
    exact ⟨by rw [hx, BitVec.toNat_add], fun h => (hF h).trans (flagByte_decide _), hframe⟩
  case sub =>
    refine completes_mono (completes_setFlagThenResult (i := .sub x y) (x := x)
      (flag := notBorrow (s.getV x) (s.getV y)) (result := s.getV x - s.getV y) rfl rfl fun _ => rfl) ?_
    rintro t ⟨hx, hF, hframe⟩
    exact ⟨by rw [hx, toNat_sub_byte], fun h => (hF h).trans (flagByte_decide _), hframe⟩
  case subn =>
    refine completes_mono (completes_setFlagThenResult (i := .subn x y) (x := x)
      (flag := notBorrow (s.getV y) (s.getV x)) (result := s.getV y - s.getV x) rfl rfl fun _ => rfl) ?_
    rintro t ⟨hx, hF, hframe⟩
    exact ⟨by rw [hx, toNat_sub_byte], fun h => (hF h).trans (flagByte_decide _), hframe⟩

/-- The flag of 8xy6 is the remainder of the halving (R157). -/
theorem toNat_flagByte_rightBit (b : Byte) : (flagByte (rightBit b)).toNat = b.toNat % 2 := by
  revert b
  decide

/-- The flag of 8xyE is the high bit (R159). -/
theorem toNat_flagByte_leftBit (b : Byte) : (flagByte (leftBit b)).toNat = b.toNat / 128 := by
  revert b
  decide

/-- Settles O44: this hardware shifts Vx (D30); the two flags are the bits shifted out. -/
theorem shiftsMoveOneBitIntoVF : Obligations.ShiftsMoveOneBitIntoVF := by
  refine fun x y s => ⟨?shr, ?shl⟩
  case shr =>
    refine completes_mono (completes_setFlagThenResult (i := .shr x y) (x := x)
      (flag := rightBit (s.getV x)) (result := s.getV x >>> 1) rfl rfl fun _ => rfl) ?_
    rintro t ⟨hx, hF, hframe⟩
    refine ⟨?_, fun h => (congrArg BitVec.toNat (hF h)).trans (toNat_flagByte_rightBit _), hframe⟩
    rw [hx, BitVec.toNat_ushiftRight]
    rfl
  case shl =>
    refine completes_mono (completes_setFlagThenResult (i := .shl x y) (x := x)
      (flag := leftBit (s.getV x)) (result := s.getV x <<< 1) rfl rfl fun _ => rfl) ?_
    rintro t ⟨hx, hF, hframe⟩
    refine ⟨?_, fun h => (congrArg BitVec.toNat (hF h)).trans (toNat_flagByte_leftBit _), hframe⟩
    rw [hx, BitVec.toNat_shiftLeft, Nat.shiftLeft_eq, Nat.mul_comm]

end Sys2Proof.Laws
end

/-! The keypad (spec 45_keypad.md): the key skips, the beginning and the end of the key wait, and what the two
input commands latch. -/

section
namespace Sys2Proof.Laws

open Sys2Proof.Machine

/-! ## The key skips -/

/-- A key skip whose Vx names the key `k` is a skip on the level of `k`. -/
theorem skipOnKey_of_key {i : Instr} {x : RegIdx} {level : Bool} {s : State} {k : KeyIdx}
    (h : (s.getV x).toNat = k.val) :
    skipOnKey i x level s = s.goOn (s.skipIf (s.key.get k == level)) := by
  rw [skipOnKey, keyOf_eq_some.2 h]

/-- A key skip whose Vx names no key raises KeyIndexFault (R175). -/
theorem skipOnKey_of_no_key {i : Instr} {x : RegIdx} {level : Bool} {s : State} (h : 15 < (s.getV x).toNat) :
    skipOnKey i x level s = raiseKeyIndex i (s.getV x) s := by
  rw [skipOnKey, keyOf_eq_none.2 h]

/-- Settles O45: ExA1 skips on the level `false`, Ex9E on `true`; both raise the fault of `skipOnKey`. -/
theorem keySkipsReadTheKeyLevel : Obligations.KeySkipsReadTheKeyLevel := by
  refine fun x s => ⟨fun k hk => ⟨?skp, ?sknp⟩, fun hbig n => ⟨?skpFault, ?sknpFault⟩⟩
  case skp =>
    exact completes_skip (c := s.key.get k == true) (decodeWord_encode (i := .skp x) rfl) rfl
      (fun _ => skipOnKey_of_key hk) (by simp)
  case sknp =>
    exact completes_skip (c := s.key.get k == false) (decodeWord_encode (i := .sknp x) rfl) rfl
      (fun _ => skipOnKey_of_key hk) (by cases s.key.get k <;> rfl)
  case skpFault => exact skipOnKey_of_no_key hbig
  case sknpFault => exact skipOnKey_of_no_key hbig

/-! ## The key wait -/

/-- Settles O46: Fx0A goes on with the four fields of the wait written. -/
theorem keyLoadBeginsTheWait : Obligations.KeyLoadBeginsTheWait := by
  intro x s
  refine completes_of_goOn (t := { s with wait := true, waitReg := x, latch := none, pc := s.pc - 2#16 })
    (decodeWord_encode (i := .ldKey x) rfl) rfl (fun _ => rfl) ⟨rfl, rfl, rfl, rfl, fun p hp => ?_⟩
  cases p
  case wait => exact absurd (.inl rfl) hp
  case waitReg => exact absurd (.inr (.inl rfl)) hp
  case latch => exact absurd (.inr (.inr (.inl rfl))) hp
  case pc => exact absurd (.inr (.inr (.inr rfl))) hp
  all_goals rfl

/-- The key-wait pass changes WAITREG's register, WAIT, LATCH and PC alone (R173). -/
theorem keyWaitPass_onlyChanges (s : CoreState) :
    OnlyChanges (fun p => p = .v s.waitReg ∨ p = .wait ∨ p = .latch ∨ p = .pc) s (keyWaitPass s) := by
  rcases keyWaitPass_cases s with ⟨-, e⟩ | ⟨k, -, e⟩ <;> rw [e]
  · exact onlyChanges_self _ s
  · intro p hp
    cases p
    case v r => exact getV_setV_ne s s.waitReg r _ fun e => hp (.inl (congrArg Part.v e))
    case wait => exact absurd (.inr (.inl rfl)) hp
    case latch => exact absurd (.inr (.inr (.inl rfl))) hp
    case pc => exact absurd (.inr (.inr (.inr rfl))) hp
    all_goals rfl

/-- A key number is the value of the byte that the wait delivers. -/
theorem toNat_keyByte (k : KeyIdx) : (BitVec.ofNat 8 k.val).toNat = k.val := by
  rw [BitVec.toNat_ofNat]
  omega

/-- Settles O12: the work of a running machine with WAIT = 1 is the key-wait pass, by its two cases. -/
theorem keyWaitPassDeliversTheLatchedKey : Obligations.KeyWaitPassDeliversTheLatchedKey := by
  intro s hf hw
  have hwork : s.nextWork = .keyWait := by simp [CoreState.nextWork, hf, hw]
  have hstep : step s = .next { s with toCoreState := keyWaitPass s.toCoreState } := cycle_of_keyWait hwork
  refine ⟨by rw [CoreState.stepDiag, hwork], fun hl => ?_, fun k hl => ?_⟩
  · rw [hstep, keyWaitPass, hl]
  · refine ⟨_, hstep, ?_⟩
    have hframe := keyWaitPass_onlyChanges s.toCoreState
    rcases keyWaitPass_cases s.toCoreState with ⟨hnone, -⟩ | ⟨k', hl', e⟩
    · cases hl.symm.trans hnone
    · obtain rfl : k = k' := Option.some.inj (hl.symm.trans hl')
      refine ⟨?_, by rw [e], by rw [e], by rw [e]; rfl, rfl, hframe⟩
      rw [e]
      exact (congrArg BitVec.toNat (getV_setV_same s.toCoreState s.waitReg _)).trans (toNat_keyByte k)

/-! ## The input commands -/

@[simp] theorem setInput_wait (k : KeyIdx) (p : Bool) (s : CoreState) : (setInput k p s).wait = s.wait := by
  rw [setInput_eq]

@[simp] theorem setInput_latch (k : KeyIdx) (p : Bool) (s : CoreState) :
    (setInput k p s).latch = (latchKey k p s).latch := rfl

theorem get_key_setInput (k j : KeyIdx) (p : Bool) (s : CoreState) :
    (setInput k p s).key.get j = if j = k then p else s.key.get j :=
  get_set_key s.key k j p

/-- Settles O47: the latch update is by its two cases, and the level is written after it. -/
theorem setInputLatchesTheFirstPress : Obligations.SetInputLatchesTheFirstPress := by
  intro k pressed s hf
  refine ⟨setInput k pressed s, whileRunning_of_fault_none hf _, ?_, fun hw hl hp hk => ?_, fun hno => ?_,
    fun p hp => ?_⟩
  · rw [get_key_setInput, if_pos rfl]
  · rcases latchKey_cases k pressed s with ⟨-, e⟩ | ⟨hno, -⟩
    · rw [setInput_latch, e]
    · exact absurd ⟨hw, hl, hp, hk⟩ hno
  · rcases latchKey_cases k pressed s with ⟨hyes, -⟩ | ⟨-, e⟩
    · exact absurd hyes hno
    · rw [setInput_latch, e]
  · rw [setInput_eq]
    cases p
    case key j => exact (get_set_key s.key k j pressed).trans (if_neg fun e => hp (.inl (congrArg Part.key e)))
    case latch => exact absurd (.inr rfl) hp
    all_goals rfl

/-- Key `k` is newly pressed by the report `levels` in the state `s` (R174). -/
def newlyPressed (levels : Vector Bool 16) (s : CoreState) (k : KeyIdx) : Bool :=
  levels.get k && !s.key.get k

theorem newlyPressed_eq_true {levels : Vector Bool 16} {s : CoreState} {k : KeyIdx} :
    newlyPressed levels s k = true ↔ levels.get k = true ∧ s.key.get k = false := by
  simp [newlyPressed]

/-- The keys after a run of reports: each reported one at its level, every other one as before. -/
theorem get_key_foldl_setInput (levels : Vector Bool 16) (ks : List KeyIdx) (s : CoreState) (j : KeyIdx) :
    (ks.foldl (fun t k => setInput k (levels.get k) t) s).key.get j =
      if j ∈ ks then levels.get j else s.key.get j := by
  induction ks generalizing s with
  | nil => simp
  | cons k ks ih =>
    rw [List.foldl_cons, ih, get_key_setInput]
    by_cases hk : j = k
    · subst hk; simp
    · simp [hk]

/-- Only a new press can be latched, so a report of no new press in a wait leaves LATCH (R174). -/
theorem latch_setInput (levels : Vector Bool 16) (k : KeyIdx) (s : CoreState) :
    (setInput k (levels.get k) s).latch =
      if s.wait = true ∧ s.latch = none ∧ newlyPressed levels s k = true then some k else s.latch := by
  simp only [newlyPressed_eq_true, setInput_latch]
  rcases latchKey_cases k (levels.get k) s with ⟨h, e⟩ | ⟨h, e⟩
  · rw [e, if_pos h]
  · rw [e, if_neg h]

/-- A reported key has its level afterwards, so no second report of it is a new press. -/
theorem newlyPressed_setInput (levels : Vector Bool 16) (k j : KeyIdx) (s : CoreState)
    (hk : newlyPressed levels s k = false) :
    newlyPressed levels (setInput k (levels.get k) s) j = newlyPressed levels s j := by
  rw [newlyPressed, get_key_setInput]
  split
  case isTrue h => subst h; simp [hk]
  case isFalse => rfl

/-- The latch after a run of reports: the first new press, if a key wait has none (R234, D35). -/
theorem latch_foldl_setInput (levels : Vector Bool 16) (ks : List KeyIdx) (s : CoreState) :
    (ks.foldl (fun t k => setInput k (levels.get k) t) s).latch =
      if s.wait = true ∧ s.latch = none then ks.find? (newlyPressed levels s) else s.latch := by
  induction ks generalizing s with
  | nil => simp
  | cons k ks ih =>
    rw [List.foldl_cons, ih, setInput_wait, latch_setInput]
    by_cases hw : s.wait = true ∧ s.latch = none
    · obtain ⟨hwait, hlatch⟩ := hw
      cases hk : newlyPressed levels s k with
      | true => simp [hwait, hlatch, hk]
      | false =>
        have hsame : newlyPressed levels (setInput k (levels.get k) s) = newlyPressed levels s :=
          funext fun j => newlyPressed_setInput levels k j s hk
        simp [hwait, hlatch, hk, hsame]
    · have hlatch : ¬(s.wait = true ∧ s.latch = none ∧ newlyPressed levels s k = true) :=
        fun h => hw ⟨h.1, h.2.1⟩
      rw [if_neg hlatch, if_neg hw, if_neg hw]

theorem val_getElem_allKeys : ∀ (j : Nat) (h : j < allKeys.length), allKeys[j].val = j := by decide

/-- The first of the sixteen keys with a property, in rising order, is the lowest one. -/
theorem find?_allKeys_of_lowest {p : KeyIdx → Bool} {k : KeyIdx} (hk : p k = true)
    (hlow : ∀ j, j < k → p j = false) : allKeys.find? p = some k := by
  refine List.find?_eq_some_iff_getElem.2 ⟨hk, k.val, k.isLt, Fin.ext (val_getElem_allKeys _ _), ?_⟩
  intro j hj
  rw [hlow, Bool.not_false]
  exact (val_getElem_allKeys j _).trans_lt hj

/-- Writing the latch and the keys changes them alone. -/
theorem latch_keys_onlyChanges (s : CoreState) (l : Option KeyIdx) (ks : Vector Bool 16) :
    OnlyChanges (fun p => p = .latch ∨ ∃ k, p = .key k) s { s with latch := l, key := ks } := by
  intro p hp
  cases p
  case key j => exact absurd (.inr ⟨j, rfl⟩) hp
  case latch => exact absurd (.inl rfl) hp
  all_goals rfl

/-- Settles O48: by the run of the sixteen reports in rising order. -/
theorem setInputsLatchesTheLowestPress : Obligations.SetInputsLatchesTheLowestPress := by
  intro levels s hf
  have hkeys : ∀ k : KeyIdx, k ∈ allKeys := by decide
  have hlatch : (setInputs levels s).latch = _ := latch_foldl_setInput levels allKeys s
  refine ⟨setInputs levels s, whileRunning_of_fault_none hf _, fun k => ?_, fun k hw hl hp hk hlow => ?_,
    fun hno => ?_, ?_⟩
  · exact (get_key_foldl_setInput levels allKeys s k).trans (if_pos (hkeys k))
  · rw [if_pos ⟨hw, hl⟩, find?_allKeys_of_lowest (newlyPressed_eq_true.2 ⟨hp, hk⟩)] at hlatch
    · exact hlatch
    · exact fun j hj => Bool.eq_false_iff.2 fun h => hlow j hj (newlyPressed_eq_true.1 h)
  · rw [hlatch]
    split
    case isTrue h =>
      rcases hno with hw | hl | hnone
      · cases h.1.symm.trans hw
      · exact absurd h.2 hl
      · rw [h.2, List.find?_eq_none]
        exact fun j _ hj => hnone j (newlyPressed_eq_true.1 hj)
    case isFalse => rfl
  · rw [setInputs_eq]
    exact latch_keys_onlyChanges s _ _

end Sys2Proof.Laws
end

/-! The memory instructions Fx29, Fx33, Fx55 and Fx65 (spec 47_index_memory.md), the fetch of what they store
(20_memory.md section 7) and load (70_reset_and_hazards.md R256). -/

section
namespace Sys2Proof.Laws

open Sys2Proof.Machine

/-! ## Checked accesses in and out of range -/

theorem writeChecked_of_inside {m : Memory} {base : Nat} {bs : List Byte} (h : base + bs.length ≤ 0x1000) :
    Memory.writeChecked m base bs = .ok (Memory.writeAll m base bs) := by
  rw [Memory.writeChecked, firstOutside_eq_none.2 (.inr h)]

/-- The range check that fails names `max(base, 0x1000)` (R55, D6). -/
theorem firstOutside_of_outside {base n : Nat} (hn : n ≠ 0) (h : 0x1000 < base + n) :
    firstOutside base n = some (max base 0x1000) :=
  firstOutside_eq_some.2 ⟨hn, h, rfl⟩

theorem readChecked_of_outside {m : Memory} {base n : Nat} (hn : n ≠ 0) (h : 0x1000 < base + n) :
    Memory.readChecked m base n = .error (max base 0x1000) := by
  rw [Memory.readChecked, firstOutside_of_outside hn h]

theorem writeChecked_of_outside {m : Memory} {base : Nat} {bs : List Byte} (hn : bs.length ≠ 0)
    (h : 0x1000 < base + bs.length) : Memory.writeChecked m base bs = .error (max base 0x1000) := by
  rw [Memory.writeChecked, firstOutside_of_outside hn h]

@[simp] theorem length_bcdDigits (b : Byte) : (bcdDigits b).length = 3 := rfl

/-- A checked access out of range raises AddressFault of its instruction (R214). -/
theorem withAccess_of_error {α : Type} {i : Instr} {s : State} {r : Except Nat α} {a : Nat}
    {k : α → CoreState} (h : r = .error a) : withAccess i s r k = raiseAddress i a s := by
  rw [h, withAccess_error]

/-- Settles O57: each of the four goes through one checked access, and Dxyn with n = 0 through none. -/
theorem accessPastMemoryFaults : Obligations.AccessPastMemoryFaults := by
  intro x y n s
  refine ⟨fun hn h => ?drw, fun h => ?ldB, fun h => ?store, fun h => ?load⟩
  case drw => exact withAccess_of_error (readChecked_of_outside hn h)
  case ldB => exact withAccess_of_error (writeChecked_of_outside (by simp) (by rw [length_bcdDigits]; omega))
  case store => exact withAccess_of_error (writeChecked_of_outside (by simp) (by rw [length_firstRegs]; omega))
  case load => exact withAccess_of_error (readChecked_of_outside (Nat.succ_ne_zero _) (by omega))

/-! ## The stores -/

/-- Settles O53: the address fits in 16 bits for every byte (D13). -/
theorem fontAddressOfDigit : Obligations.FontAddressOfDigit := by
  intro x s
  refine completes_of_goOn (t := s.setI (glyphAddr (s.getV x))) (decodeWord_encode (i := .ldF x) rfl) rfl
    (fun _ => rfl) ⟨?_, setI_onlyChanges_idx s _⟩
  rw [CoreState.setI_idx, glyphAddr, BitVec.toNat_ofNat, Config.fontBase, Config.glyphBytes]
  have := (s.getV x).isLt
  omega

/-- A frame that names more parts. -/
theorem onlyChanges_mono {may may' : Part → Prop} {s t : CoreState} (h : OnlyChanges may s t)
    (himp : ∀ p, may p → may' p) : OnlyChanges may' s t :=
  fun p hp => h p fun hmay => hp (himp p hmay)

/-- A run of bytes stored inside memory changes the bytes of its range alone. -/
theorem setMem_writeAll_onlyChanges {s : CoreState} {base : Nat} {bs : List Byte}
    (hwf : Memory.wf s.mem = true) (hin : base + bs.length ≤ 0x1000) :
    OnlyChanges (fun p => ∃ a, p = .byte a ∧ base ≤ a ∧ a < base + bs.length) s
      (s.setMem (Memory.writeAll s.mem base bs)) := by
  intro p hp
  cases p
  case byte a => exact (read_writeAll hwf hin).trans (if_neg fun h => hp ⟨a, rfl, h⟩)
  all_goals rfl

/-- The same range by its last address. -/
theorem setMem_writeAll_onlyChanges_le {s : CoreState} {base last : Nat} {bs : List Byte}
    (hwf : Memory.wf s.mem = true) (hin : base + bs.length ≤ 0x1000) (hlast : base + bs.length = last + 1) :
    OnlyChanges (fun p => ∃ a, p = .byte a ∧ base ≤ a ∧ a ≤ last) s
      (s.setMem (Memory.writeAll s.mem base bs)) := by
  refine onlyChanges_mono (setMem_writeAll_onlyChanges hwf hin) fun p hp => ?_
  obtain ⟨a, rfl, hlo, hhi⟩ := hp
  exact ⟨a, rfl, hlo, by omega⟩

/-- Byte `j` of a run of bytes stored inside memory. -/
theorem readByte_setMem_writeAll {s : CoreState} {base j : Nat} {bs : List Byte}
    (hwf : Memory.wf s.mem = true) (hin : base + bs.length ≤ 0x1000) (hj : j < bs.length) :
    (s.setMem (Memory.writeAll s.mem base bs)).readByte (base + j) = bs.getD j 0#8 := by
  refine (read_writeAll hwf hin).trans ?_
  rw [if_pos (by omega), Nat.add_sub_cancel_left]

/-- A number below 256 is the value of its byte. -/
theorem toNat_ofNat_byte {n : Nat} (h : n < 256) : (BitVec.ofNat 8 n).toNat = n :=
  (BitVec.toNat_ofNat n 8).trans (Nat.mod_eq_of_lt h)

/-- Settles O54: each digit is below 10, so its byte holds it. -/
theorem decimalDigitsAreStored : Obligations.DecimalDigitsAreStored := by
  intro x s hwf hin
  have hin' : s.idx.toNat + (bcdDigits (s.getV x)).length ≤ 0x1000 := by rw [length_bcdDigits]; omega
  have hread := fun j (hj : j < 3) => readByte_setMem_writeAll (j := j) hwf hin' hj
  have hV := (s.getV x).isLt
  refine completes_withAccess (k := s.setMem) (decodeWord_encode (i := .ldB x) rfl) rfl (fun _ => rfl)
    (writeChecked_of_inside (m := s.mem) hin') ⟨?_, ?_, ?_, setMem_writeAll_onlyChanges_le hwf hin' rfl⟩
  · exact (congrArg BitVec.toNat (hread 0 (by decide))).trans (toNat_ofNat_byte (by omega))
  · exact (congrArg BitVec.toNat (hread 1 (by decide))).trans (toNat_ofNat_byte (by omega))
  · exact (congrArg BitVec.toNat (hread 2 (by decide))).trans (toNat_ofNat_byte (by omega))

/-- Register `i` of a block of registers. -/
theorem getD_firstRegs {s : CoreState} {x i : RegIdx} (h : i ≤ x) : (s.firstRegs x).getD i.val 0#8 = s.getV i := by
  rw [List.getD_eq_getElem?_getD, getElem?_firstRegs s x i h, Option.getD_some]

/-- Settles O55: byte `i` of the run is V[i]. -/
theorem registersAreStored : Obligations.RegistersAreStored := by
  intro x s hwf hin
  have hin' : s.idx.toNat + (s.firstRegs x).length ≤ 0x1000 := by rw [length_firstRegs]; omega
  refine completes_withAccess (k := s.setMem) (decodeWord_encode (i := .store x) rfl) rfl (fun _ => rfl)
    (writeChecked_of_inside (m := s.mem) hin')
    ⟨fun i hi => ?_, setMem_writeAll_onlyChanges_le hwf hin' (by rw [length_firstRegs]; rfl)⟩
  have hlt : i.val < (s.firstRegs x).length := by rw [length_firstRegs]; exact Nat.lt_succ_of_le hi
  rw [readByte_setMem_writeAll hwf hin' hlt, getD_firstRegs hi]

/-- Settles O56: V[i] takes byte `i` of the run for i up to x, and no register above x is reached. -/
theorem registersAreLoaded : Obligations.RegistersAreLoaded := by
  intro x s hin
  have hin' : s.idx.toNat + (x.val + 1) ≤ 0x1000 := by omega
  refine completes_withAccess (k := s.setRegsFrom 0) (decodeWord_encode (i := .load x) rfl) rfl (fun _ => rfl)
    (readChecked_of_inside (m := s.mem) (.inr hin')) ⟨fun i hi => ?_, fun p hp => ?_⟩
  · have hlt : i.val < x.val + 1 := Nat.lt_succ_of_le hi
    rw [getV_setRegsFrom, length_readAll, if_pos (by omega), Nat.sub_zero, getD_readAll hlt, CoreState.readByte]
  · rw [setRegsFrom_eq]
    cases p
    case v r =>
      refine (getV_setRegsFrom s 0 _ r).trans (if_neg fun h => hp ⟨r, rfl, ?_⟩)
      rw [length_readAll] at h
      exact Fin.le_def.2 (by omega)
    all_goals rfl

theorem writeChecked_eq_ok {m m' : Memory} {base : Nat} {bs : List Byte} (hlen : bs.length ≠ 0)
    (h : Memory.writeChecked m base bs = .ok m') :
    base + bs.length ≤ 0x1000 ∧ m' = Memory.writeAll m base bs := by
  rcases writeChecked_cases m base bs with ⟨hr, e⟩ | ⟨-, -, e⟩ <;> rw [e] at h <;> cases h
  exact ⟨hr.resolve_left hlen, rfl⟩

/-- A fetch inside memory by the number in PC. -/
theorem fetchWord_of_inside {s : CoreState} {a : Nat} (hpc : s.pc.toNat = a) (h : a + 2 ≤ 0x1000) :
    s.fetchWord = .ok (wordOfBytes (s.readByte a) (s.readByte (a + 1))) := by
  subst hpc
  rcases fetchWord_cases s with ⟨-, e⟩ | ⟨hout, -⟩
  · exact e
  · exact absurd h (Nat.not_le.2 hout)

/-- Settles O58: the two bytes that the fetch reads are those stored from V[i] and V[i+1]. -/
theorem storedBytesAreFetched : Obligations.StoredBytesAreFetched := by
  intro x i j s t hwf hij hj h
  obtain ⟨m, hm, hcore⟩ := core_of_withAccess h
  obtain ⟨hin, rfl⟩ := writeChecked_eq_ok (by simp) hm
  have hjx : j.val ≤ x.val := hj
  have hlen := length_firstRegs s.toCoreState x
  have hpc : (s.idx + BitVec.ofNat 16 i.val).toNat = s.idx.toNat + i.val := by
    rw [BitVec.toNat_add, BitVec.toNat_ofNat]
    omega
  rw [fetchWord_of_inside hpc (by omega)]
  have hfirst : t.readByte (s.idx.toNat + i.val) = s.getV i := by
    rw [hcore, readByte_setMem_writeAll hwf hin (by omega), getD_firstRegs (Fin.le_def.2 (by omega))]
  have hsecond : t.readByte (s.idx.toNat + j.val) = s.getV j := by
    rw [hcore, readByte_setMem_writeAll hwf hin (by omega), getD_firstRegs hj]
  rw [← hij, ← Nat.add_assoc] at hsecond
  exact congrArg Except.ok (congrArg₂ wordOfBytes hfirst hsecond)

/-- Settles O59: load is one run of bytes from 0x200, and its check is the length that ends at 0xFFF. -/
theorem loadPlacesTheRom : Obligations.LoadPlacesTheRom := by
  intro rom s hf hwf
  refine ⟨fun hlong => ?_, fun hfits => ?_⟩
  · have hload : loadRom rom s = (s, .romTooLarge) := if_pos hlong
    rw [command, whileRunning_of_fault_none hf, hload]
  · have hload : loadRom rom s = (s.setMem (Memory.writeAll s.mem 0x200 rom), .none) :=
      if_neg (Nat.not_lt.2 hfits)
    have hin : 0x200 + rom.length ≤ 0x1000 := by omega
    refine ⟨_, by rw [command, whileRunning_of_fault_none hf, hload], fun i hi => ?_, ?_⟩
    · rw [readByte_setMem_writeAll hwf hin hi, List.getD_eq_getElem?_getD, List.getElem?_eq_getElem hi]
      rfl
    · exact setMem_writeAll_onlyChanges hwf hin

end Sys2Proof.Laws
end

/-! The machine after construction (spec 70_reset_and_hazards.md) and the run of it with no program loaded. -/

section
namespace Sys2Proof.Laws

open Sys2Proof.Machine

/-! ## The fetch past memory (R94) -/

/-- Settles O11: the range check of a fetch is that of two bytes at PC. -/
theorem fetchPastMemoryFaults : Obligations.FetchPastMemoryFaults := by
  intro s hf hw
  have step_of_outside : ∀ a, 0x1000 < s.pc.toNat + 2 → max s.pc.toNat 0x1000 = a →
      step s = .fault (.addressFault a s.pc none) := by
    intro a hout ha
    have hwork : s.nextWork = .fetchFault a := by
      rw [CoreState.nextWork, hf, hw, CoreState.fetchWord, firstOutside_of_outside (by decide) hout, ha]
      rfl
    exact cycle_of_fetchFault hwork
  exact ⟨fun h => step_of_outside _ (by omega) (by omega), fun h => step_of_outside _ (by omega) (by omega)⟩

/-! ## Reset -/

/-- Outside the font memory reads as 0 at reset (R32, D3). -/
theorem resetByte_outside_font {a : Nat} (h : a < 0x050 ∨ 0x0A0 ≤ a) : resetByte a = 0#8 := by
  rw [resetByte]
  split
  case isTrue => rfl
  case isFalse hlow =>
    have hlen : fontData.length = 80 := rfl
    refine List.getD_eq_default _ _ ?_
    simp only [Config.fontBase] at hlow ⊢
    omega

/-- Settles O6: the fields are those written in `CoreState.reset`; nothing is listed in memory. -/
theorem resetState : Obligations.ResetState := by
  refine ⟨by decide, rfl, rfl, rfl, by decide, rfl, rfl, fun px py => pixel_blankScreen px py, by decide, rfl,
    rfl, rfl, rfl, rfl, fun a h => resetByte_outside_font h⟩

/-- Settles O7: the memory of reset lists no cell, and there is neither a latch nor a key wait. -/
theorem resetMeetsInvariant : Obligations.ResetMeetsInvariant :=
  ⟨⟨rfl, fun h => absurd rfl h⟩, waitsAtItsInstruction_of_not_wait rfl, rfl, rfl⟩

/-! ## The run with no program loaded (R257) -/

/-- The reset state with another PC. -/
def resetAt (pc : Word) : State := { State.reset with pc := pc }

/-- Behind the font every step runs the no-op of two zero bytes. -/
theorem step_resetAt {pc : Word} {a : Nat} (hpc : pc.toNat = a) (hlow : 0x0A0 ≤ a) (hin : a + 2 ≤ 0x1000) :
    step (resetAt pc) = .next (resetAt (pc + 2#16)) := by
  have hhi : (resetAt pc).readByte a = 0#8 := resetByte_outside_font (.inr hlow)
  have hlo : (resetAt pc).readByte (a + 1) = 0#8 := resetByte_outside_font (.inr (by omega))
  have hfetch : (resetAt pc).fetchWord = .ok 0x0000#16 := by
    rw [fetchWord_of_inside (s := (resetAt pc).toCoreState) hpc hin, hhi, hlo]
    rfl
  have hwork : (resetAt pc).nextWork = .run (.sys 0x000#12) := by
    rw [CoreState.nextWork, hfetch]
    rfl
  exact cycle_of_run hwork

/-- A run of `k` steps behind the font moves PC by `2 * k`, as long as it stays in memory. -/
theorem run_resetAt (k : Nat) {pc : Word} {a : Nat} (hpc : pc.toNat = a) (hlow : 0x0A0 ≤ a)
    (hin : a + 2 * k ≤ 0x1000) :
    ∃ pc' : Word, Sys2Proof.core.run k (resetAt pc) = .next (resetAt pc') ∧ pc'.toNat = a + 2 * k := by
  induction k generalizing pc a with
  | zero => exact ⟨pc, rfl, hpc⟩
  | succ k ih =>
    have hnext : (pc + 2#16).toNat = a + 2 := by
      rw [BitVec.toNat_add, hpc, BitVec.toNat_ofNat]
      omega
    obtain ⟨pc', hrun, hpc'⟩ := ih hnext (by omega) (by omega)
    refine ⟨pc', ?_, by omega⟩
    exact (run_succ_of_next (M := Sys2Proof.core) k (step_resetAt hpc hlow (by omega))).trans hrun

/-- A run of `k + j` steps whose first `k` go on is the run of the last `j` from there. -/
theorem run_add_of_next {M : Host.Core} {k : Nat} {s u : M.State} (j : Nat) (h : M.run k s = .next u) :
    M.run (k + j) s = M.run j u := by
  induction k generalizing s with
  | zero => cases h; rw [Nat.zero_add]
  | succ k ih =>
    rw [Nat.add_right_comm]
    cases hs : M.step s with
    | next v =>
      rw [run_succ_of_next k hs] at h
      rw [run_succ_of_next (k + j) hs, ih h]
    | fault f => cases (run_succ_of_fault k hs).symm.trans h
    | refused r => cases (run_succ_of_refused k hs).symm.trans h

/-- Settles O8: 1792 no-ops from 0x200 end at 0x1000, where the fetch faults. -/
theorem resetRunReachesTheEndOfMemory : Obligations.ResetRunReachesTheEndOfMemory := by
  have run_reset : ∀ k, k ≤ 1792 → ∃ pc' : Word,
      Sys2Proof.core.run k State.reset = .next (resetAt pc') ∧ pc'.toNat = 0x200 + 2 * k :=
    fun k hk => run_resetAt k (pc := 0x200#16) rfl (by decide) (by omega)
  refine ⟨fun k hk => ?_, ?_⟩
  · obtain ⟨pc', hrun, hpc'⟩ := run_reset k hk
    exact ⟨resetAt pc', hrun, hpc'⟩
  · obtain ⟨pc', hrun, hpc'⟩ := run_reset 1792 le_rfl
    obtain rfl : pc' = 0x1000#16 := BitVec.eq_of_toNat_eq hpc'
    have hfault : step (resetAt 0x1000#16) = .fault (.addressFault 0x1000 0x1000#16 none) :=
      (fetchPastMemoryFaults (resetAt 0x1000#16) rfl rfl).1 (by decide)
    rw [show 1793 = 1792 + 1 from rfl, run_add_of_next 1 hrun]
    exact run_succ_of_fault (M := Sys2Proof.core) 0 hfault

end Sys2Proof.Laws
end
